-- ==== Sys2Proof/Word.lean ====
section
/-! DEFINITION. The value types of 00_scope.md rule R7: u8, u4, bit, and the 7-bit DDRAM address (rule R30).
A duration is a `Nat`: "natural numbers of microseconds". -/

namespace Sys2Proof

/-- `u8` of rule R7: an unsigned integer in 0..255. -/
abbrev Byte := BitVec 8

/-- `u4` of rule R7: the value on the four data lines, bit i on DB[i] (rule R36). -/
abbrev Nibble := BitVec 4

/-- `bit` of rule R7, a line level: `false` is 0 (low), `true` is 1 (high). -/
abbrev Bit := Bool

/-- A DDRAM address, "7-bit address (0x00 to 0x7F)" (rule R30). -/
abbrev Addr := BitVec 7

end Sys2Proof
end

