-- ==== Sys2Proof/Config.lean ====
section
/-! DEFINITION. The configuration of 00_scope.md rule R5 and 10_state.md rules R11 to R13, its well-formedness
(rule R25), the instance `Config4x20`, and the one free value the spec leaves (U6: how much longer than its bound a
wait lasts). -/

namespace Sys2Proof

/-- The record `Config` of rule R5: "a parameter of every step" (R10), fixed at construction. -/
structure Config where
  /-- Number of rows, u8 (R11). -/
  rows : Byte
  /-- Number of columns, u8 (R11). -/
  columns : Byte
  /-- `row_base_address`: "per-row DDRAM base offsets", one u8 per row (R12). -/
  rowBase : List Byte
  /-- `T_POWERON` (R13). -/
  tPowerOn : Nat
  /-- `T_LONG` (R13). -/
  tLong : Nat
  /-- `T_PULSE` (R13). -/
  tPulse : Nat
  /-- `NEWLINE_CHAR` (R13). -/
  newlineChar : Byte
  deriving DecidableEq, Repr

namespace Config

/-- Rule R25: `0 < rows`; `0 < columns`; the table has exactly `rows` entries; every
`row_base_address[r] + columns - 1 <= 0x7F`. -/
def wf (c : Config) : Bool :=
  decide (0 < c.rows.toNat) && decide (0 < c.columns.toNat) && decide (c.rowBase.length = c.rows.toNat)
    && c.rowBase.all fun base => decide (base.toNat + c.columns.toNat - 1 ≤ 0x7F)

/-- `Config4x20`, the "value here" column of rule R5. -/
def config4x20 : Config where
  rows := 4
  columns := 20
  rowBase := [0x00, 0x40, 0x14, 0x54]
  tPowerOn := 15000
  tLong := 1640
  tPulse := 40
  newlineChar := 0x0A

/-- FREE VALUE (93_implementation_defined.md U6, assumption log 6): by how many microseconds the wait at index
`k` of the trace overshoots its bound. "any value at or above the bound (a draw)". Nothing constrains it. -/
opaque waitExcess (k : Nat) : Nat

end Config

end Sys2Proof
end

