-- ==== Sys2Proof/Syntax.lean ====
section
/-! DEFINITION. The instructions, one constructor per row of spec/opcode_table.json (30_encoding.md rule R50: the
upward operations and the emitted items), and the words that carry them in the four formats of the table. -/

namespace Sys2Proof

/-- One constructor per row of the opcode table, in the table's order. -/
inductive Instr where
  /-- INIT, REQ19 op 0 (R90). -/
  | init
  /-- WRITE_CHAR, REQ19 op 1 (R100). -/
  | writeChar (c : Byte)
  /-- LOCATE, REQ19 op 2 (R110): column first, row second, each "`Int` at the abstract interface; u8 in REQ19". -/
  | locate (column row : Int)
  /-- CLEAR, REQ19 op 3 (R111). -/
  | clear
  /-- NEWLINE, REQ19 op 4 (R101). -/
  | newline
  /-- CLEAR_DISPLAY, command byte 0x01 (R80). -/
  | clearDisplay
  /-- ENTRY_MODE_SET, command byte 0x06 (R81). -/
  | entryModeSet
  /-- DISPLAY_CONTROL, command byte 0x0C (R82). -/
  | displayControl
  /-- FUNCTION_SET, command byte 0x28 (R83). -/
  | functionSet
  /-- SET_DDRAM_ADDR, command bytes 0x80 to 0xFF (R84). -/
  | setDdramAddr (a : Addr)
  /-- INIT_NIBBLE_3, single nibble 0x3 (R85). -/
  | initNibble3
  /-- INIT_NIBBLE_2, single nibble 0x2 (R86). -/
  | initNibble2
  /-- WRITE_DATA, data byte d (R87). -/
  | writeData (d : Byte)
  deriving DecidableEq, Repr

/-- The upward operations, kind (a) of rule R50: what the host may request. The other constructors are the emitted
items, kind (b). -/
def Instr.upward : Instr → Bool
  | .init => true
  | .writeChar _ => true
  | .locate _ _ => true
  | .clear => true
  | .newline => true
  | .clearDisplay => false
  | .entryModeSet => false
  | .displayControl => false
  | .functionSet => false
  | .setDdramAddr _ => false
  | .initNibble3 => false
  | .initNibble2 => false
  | .writeData _ => false

/-- The four formats of the opcode table (R52, R53, R58). -/
inductive Format where
  | req19
  | cmd8
  | nib4
  | data8
  deriving DecidableEq, Repr

/-- A word in its format. The same eight bits are a command or a character by the level of RS, and a nibble is told
from a byte by its position only (R61), so a word carries its format beside its bits. -/
inductive PortWord where
  /-- `req[18:0]`, the upward request word (R58). -/
  | req19 (w : BitVec 19)
  /-- A byte sent with RS = 0 (R53). -/
  | cmd8 (b : Byte)
  /-- A lone nibble (R52). -/
  | nib4 (n : Nibble)
  /-- A byte sent with RS = 1 (R53). -/
  | data8 (b : Byte)
  deriving DecidableEq, Repr

/-- The format of a word. -/
def PortWord.format : PortWord → Format
  | .req19 _ => .req19
  | .cmd8 _ => .cmd8
  | .nib4 _ => .nib4
  | .data8 _ => .data8

/-- The bits of a word as one number, bit 0 least significant (R7). -/
def PortWord.bits : PortWord → Nat
  | .req19 w => w.toNat
  | .cmd8 b => b.toNat
  | .nib4 n => n.toNat
  | .data8 b => b.toNat

end Sys2Proof
end

