-- ==== Sys2Proof/Machine/State.lean ====
section
/-! DEFINITION. The state of the block (10_state.md rules R10 to R21) as plain data, the reasons a step can stop
(60_exceptions.md rule R133), the results an operation returns (rules R58, R120), and the state at construction
(rule R24). -/

namespace Sys2Proof.Machine

/-- An event: "one line write or one wait" (R20, R9). -/
inductive Event where
  /-- `SetRS(b)`: drive register-select (R71). -/
  | setRS (b : Bit)
  /-- `SetE(b)`: drive enable (R72). -/
  | setE (b : Bit)
  /-- `SetDB(n)`: drive the four data lines (R73). -/
  | setDB (n : Nibble)
  /-- `Wait(d)`: no line write for at least `d` microseconds (R70). -/
  | wait (d : Nat)
  deriving DecidableEq, Repr

/-- `phase` (R19). -/
inductive Phase where
  /-- Before the initialization sequence has run. -/
  | uninit
  /-- After it. -/
  | ready
  deriving DecidableEq, Repr

/-- "Taxonomy: exactly one error kind" (R120). -/
inductive Err where
  | outOfRange
  deriving DecidableEq, Repr

/-- What an operation returns to the host (R58). It is an output and no rule reads it (assumption log 3). -/
inductive Response where
  /-- INIT, CLEAR, NEWLINE: none. -/
  | noResult
  /-- WRITE_CHAR: `ret[7:0] = c`. -/
  | ret (c : Byte)
  /-- LOCATE, `err` bit 0. -/
  | ok
  /-- LOCATE, `err` bit 1. -/
  | err (e : Err)
  deriving DecidableEq, Repr

/-- A request presented to the block (R58): a word, or an operation at the abstract interface ("A model that prefers
the source's abstract interface may ... take the operations as constructors"). -/
inductive Request where
  | word (w : PortWord)
  | op (i : Instr)
  deriving DecidableEq, Repr

/-- The level of the model (R6): the operation level, in which an accepted operation runs to completion in one step, or
the event level of R78, in which one event is performed per step. -/
inductive Level where
  | operation
  | event
  deriving DecidableEq, Repr

/-- The block has no fault: its one error is a result (R124: "it never escalates to a process-level fault") and
transmission "cannot fail" (R132). No one raises one. -/
inductive Fault where
  deriving DecidableEq, Repr

/-- The refusals of R133 and R59: requests to which the spec gives no meaning. Every one is SAFE ("it errs toward
unprovable"). -/
inductive Refusal where
  /-- Raised by no arm of `exec` today: an instruction whose meaning is not written yet. Safe. -/
  | notModelled (mnemonic : String)
  /-- R133 (e): a request presented while `pending` is not empty. Raised by every instruction. Safe. -/
  | busy
  /-- R133 (d): a REQ19 word with op 5, 6 or 7. Raised by `step`. Safe. -/
  | reservedOp
  /-- R133 (a): WRITE_CHAR, LOCATE, CLEAR, NEWLINE while `phase = UNINIT`. Safe. -/
  | notInitialized
  /-- R133 (b): INIT while `phase = READY`. Safe. -/
  | alreadyInitialized
  /-- R133 (c): an ill-formed configuration. Raised by INIT and, in states no run reaches, by the other upward
  operations (R142 (1)). Safe. -/
  | badConfig
  /-- R59: an item "never emitted". Raised by `step` for a command byte or nibble outside R54 and R55, by
  SET_DDRAM_ADDR for an address outside the mapper's image and by WRITE_DATA for `NEWLINE_CHAR`. Safe. -/
  | neverEmitted
  deriving DecidableEq, Repr

end Sys2Proof.Machine

namespace Sys2Proof.Machine

/-- The record `State` of R10 (`cursor_row` to `trace`), the sequencing position of R21, the configuration of R5 (a
parameter of every step, held here because `exec` takes no other argument), and four fields of the model's own:
the requests the host has yet to present, the level the machine runs at, the last result returned, and the result the
operation in flight is to return. -/
structure State where
  /-- `Config` (R10 to R13): fixed at construction, written by no operation. -/
  cfg : Config
  /-- `cursor_row`, u8 (R14). -/
  cursorRow : Byte
  /-- `cursor_column`, u8 (R14). -/
  cursorColumn : Byte
  /-- `rs`, the register-select level (R15); `none` is never written. -/
  rs : Option Bit
  /-- `e`, the enable level (R16). -/
  e : Option Bit
  /-- `db`, the value on the data lines (R17). -/
  db : Option Nibble
  /-- `phase` (R19). -/
  phase : Phase
  /-- `trace`: every event performed, oldest first (R20). -/
  trace : List Event
  /-- `pending`: the events of the accepted operation not yet performed (R21, R78). -/
  pending : List Event
  /-- The model's own: the level the machine runs at (R6). -/
  level : Level
  /-- The model's own: the requests the host will present, oldest first; the next is presented when no operation is in
  flight (R58). -/
  requests : List Request
  /-- The model's own: the result of the last operation that returned to the host (R58). -/
  response : Response
  /-- The model's own: the result the operation in flight returns when its last event is performed (R78's `complete`);
  `none` where no result is owed. -/
  returning : Option Response
  deriving DecidableEq, Repr

namespace State

/-- The construction state: the column "before INIT" of R24's table, for a configuration as supplied. The cursor is
"unspecified" there; it holds 0 here (DESIGN CHOICE, assumption log 1). -/
def construction (cfg : Config) : State where
  cfg := cfg
  cursorRow := 0
  cursorColumn := 0
  rs := none
  e := none
  db := none
  phase := .uninit
  trace := []
  pending := []
  level := .operation
  requests := []
  response := .noResult
  returning := none

/-- The machine right after reset: "Reset is construction" (R140), with `Config4x20` (R5). -/
def reset : State := construction Config.config4x20

/-- `s.cursor_row <- row; s.cursor_column <- column`. -/
def setCursor (row column : Byte) (s : State) : State := { s with cursorRow := row, cursorColumn := column }

/-- `s.phase <- p`. -/
def setPhase (p : Phase) (s : State) : State := { s with phase := p }

/-- `pending <- es` (R78). -/
def setPending (es : List Event) (s : State) : State := { s with pending := es }

/-- The requests still to present become `rs`. -/
def setRequests (rs : List Request) (s : State) : State := { s with requests := rs }

/-- The machine runs at level `l` (R6). -/
def setLevel (l : Level) (s : State) : State := { s with level := l }

/-- The operation returns `r` to the host. -/
def respond (r : Response) (s : State) : State := { s with response := r }

/-- The result the operation in flight owes becomes `r`. -/
def setReturning (r : Option Response) (s : State) : State := { s with returning := r }

/-- The operation returns its result to the host, if it has one: an emitted item has none. -/
def deliver (r : Option Response) (s : State) : State := s.respond (r.getD s.response)

/-- `emit(e)` of R9: "apply it to the line registers ... and append it to `s.trace`". -/
def emit (ev : Event) (s : State) : State :=
  match ev with
  | .setRS b => { s with rs := some b, trace := s.trace ++ [.setRS b] }
  | .setE b => { s with e := some b, trace := s.trace ++ [.setE b] }
  | .setDB n => { s with db := some n, trace := s.trace ++ [.setDB n] }
  | .wait d => { s with trace := s.trace ++ [.wait d] }

end State

end Sys2Proof.Machine
end

