-- ==== Sys2Proof/Machine/Operands.lean ====
section
/-! DEFINITION. How operands are used: the nibbles of a value (20_memory.md rules R35, R36), LOCATE's range test
(44_cursor_ops.md rule R110), the DDRAM address mapper and the command byte (rules R31, R32, R57). -/

namespace Sys2Proof.Machine

/-- `v[3:0]`: "the low 4 bits of the value" (R36, R74). -/
def lowNibble (v : Nat) : Nibble := BitVec.ofNat 4 v

/-- `b >> 4`, whose low nibble is `b[7:4]` (R75). -/
def highPart (b : Byte) : Nat := b.toNat >>> 4

/-- The byte whose nibbles are `hi` and `lo`: `hi * 16 + lo` (R43). -/
def joinNibbles (hi lo : Nibble) : Byte := hi ++ lo

/-- LOCATE succeeds exactly on the geometry: `column ∈ [0, columns)` and `row ∈ [0, rows)` (R110). -/
abbrev InGeometry (cfg : Config) (column row : Int) : Prop :=
  0 ≤ column ∧ column < cfg.columns.toNat ∧ 0 ≤ row ∧ row < cfg.rows.toNat

/-- The mapper `ddram_addr(cfg, row, column) = cfg.row_base_address[row] + column` (R31). It is read only for a row of
the table (R31: "defined for `0 <= row < cfg.rows`"). -/
def ddramAddr (cfg : Config) (row column : Nat) : Nat := (cfg.rowBase.getD row 0).toNat + column

/-- `0x80 | a`, the byte that carries address `a` (R32). -/
def addressCommand (a : Nat) : Byte := 0x80#8 ||| BitVec.ofNat 8 a

/-- The row NEWLINE moves to: `cursor_row + 1`, or 0 where that is `rows` (R101). -/
def nextRow (cfg : Config) (row : Byte) : Byte := if row + 1 = cfg.rows then 0 else row + 1

end Sys2Proof.Machine
end

