-- ==== Sys2Proof/WellFormed.lean ====
section
/-! DEFINITION. When an instruction is well-formed: its operands fit its encoding (30_encoding.md rules R57, R58) and,
for an emitted item, it is one the block can put on the bus (rules R54, R56, R59). -/

namespace Sys2Proof

/-- The operands fit the row's encoding. Only LOCATE has operands wider than its fields: "in REQ19 they are u8" (R58).
An abstract LOCATE outside u8 has no word, and still has its meaning (R110 (e)). -/
def Instr.encodable : Instr → Bool
  | .init => true
  | .writeChar _ => true
  | .locate column row => decide (0 ≤ column ∧ column < 256 ∧ 0 ≤ row ∧ row < 256)
  | .clear => true
  | .newline => true
  | .clearDisplay => true
  | .entryModeSet => true
  | .displayControl => true
  | .functionSet => true
  | .setDdramAddr _ => true
  | .initNibble3 => true
  | .initNibble2 => true
  | .writeData _ => true

/-- The address is in the image of the mapper (R31): some row's base plus some column below `columns`. -/
def Config.mapsTo (cfg : Config) (a : Addr) : Bool :=
  cfg.rowBase.any fun base => decide (base.toNat ≤ a.toNat ∧ a.toNat < base.toNat + cfg.columns.toNat)

/-- Rule R59: what is "never emitted" has no meaning as an item. Never emitted are SET_DDRAM_ADDR of an address outside
the mapper's image (R84: "always `ddram_addr(cfg, row, column)`") and WRITE_DATA of `NEWLINE_CHAR` (R56, R87: "any
value except 0x0A"). "Operand values are never illegal" upward. -/
def Instr.emittable (cfg : Config) : Instr → Bool
  | .init => true
  | .writeChar _ => true
  | .locate _ _ => true
  | .clear => true
  | .newline => true
  | .clearDisplay => true
  | .entryModeSet => true
  | .displayControl => true
  | .functionSet => true
  | .setDdramAddr a => cfg.mapsTo a
  | .initNibble3 => true
  | .initNibble2 => true
  | .writeData d => decide (d ≠ cfg.newlineChar)

/-- A well-formed instruction of a block with configuration `cfg`. -/
def Instr.wf (cfg : Config) (i : Instr) : Bool := i.encodable && i.emittable cfg

end Sys2Proof
end

