-- ==== Sys2Proof/Machine/Ops.lean ====
section
/-! DEFINITION. The shared operations: the transfer primitives and their event lists (40_transfer_primitives.md rules
R70 to R77), the bodies of LOCATE, NEWLINE, WRITE_CHAR and CLEAR that one operation runs inside another (43_text_ops.md
rule R104), the admission of a request with its refusals (60_exceptions.md rule R133), and the report of the single
error (rules R120 to R125). The block takes no exception and returns from none: "Trap entry ... is: return
`Err(OutOfRange)` to the immediate caller. Saved state: none" (R124), which `report` is. -/

namespace Sys2Proof.Machine

/-! ## Events -/

/-- Perform a list of events in order (R40: no reordering, no merging, no elision). -/
def emitAll : List Event → State → State
  | [], s => s
  | ev :: rest, s => emitAll rest (s.emit ev)

/-- WAIT(d) (R70). -/
def opWait (d : Nat) (s : State) : State := s.emit (.wait d)

/-- SET_RS(b) (R71). -/
def setRS (b : Bit) (s : State) : State := s.emit (.setRS b)

/-- SET_E(b) (R72). -/
def setE (b : Bit) (s : State) : State := s.emit (.setE b)

/-- SET_DB(n) (R73). -/
def setDB (n : Nibble) (s : State) : State := s.emit (.setDB n)

/-! ## Nibble and byte -/

/-- WRITE_NIBBLE(v), the five events of format NIB4 (R52, R74); "v, any natural number; only `v[3:0]` is used". -/
def writeNibble (v : Nat) (s : State) : State :=
  let s := setDB (lowNibble v) s
  let s := opWait s.cfg.tPulse s
  let s := setE false s
  let s := opWait s.cfg.tPulse s
  setE true s

/-- WRITE_BYTE(b): "high nibble first then low nibble" (R75). -/
def writeByte (b : Byte) (s : State) : State :=
  let s := writeNibble (highPart b) s
  writeNibble b.toNat s

/-- SEND_COMMAND(b) (R76). -/
def sendCommand (b : Byte) (s : State) : State :=
  let s := setRS false s
  writeByte b s

/-- SEND_DATA(b) (R77). -/
def sendData (b : Byte) (s : State) : State :=
  let s := setRS true s
  writeByte b s

/-! ## Event lists -/

/-- `ev_nibble(v)` (R74). -/
def evNibble (cfg : Config) (v : Nat) : List Event :=
  [.setDB (lowNibble v), .wait cfg.tPulse, .setE false, .wait cfg.tPulse, .setE true]

/-- `ev_byte(b)` (R75). -/
def evByte (cfg : Config) (b : Byte) : List Event := evNibble cfg (highPart b) ++ evNibble cfg b.toNat

/-- `ev_command(b)` (R76). -/
def evCommand (cfg : Config) (b : Byte) : List Event := .setRS false :: evByte cfg b

/-- `ev_data(b)` (R77). -/
def evData (cfg : Config) (b : Byte) : List Event := .setRS true :: evByte cfg b

/-- `ev_clear` (R111). -/
def evClear (cfg : Config) : List Event := evCommand cfg 0x01 ++ [.wait cfg.tLong]

/-- One repetition of INIT step 3 (R85): `ev_nibble(0x3) ++ [Wait(T_LONG)]`. -/
def evInitNibble3 (cfg : Config) : List Event := evNibble cfg 0x3 ++ [.wait cfg.tLong]

/-- `ev_init` (R90). -/
def evInit (cfg : Config) : List Event :=
  [.setE true, .setRS false, .wait cfg.tPowerOn]
    ++ (evInitNibble3 cfg ++ evInitNibble3 cfg ++ evInitNibble3 cfg)
    ++ evNibble cfg 0x2
    ++ evCommand cfg 0x28 ++ evCommand cfg 0x0C ++ evCommand cfg 0x06
    ++ evClear cfg

/-! ## Bodies run inside operations -/

/-- The body of LOCATE (R110): `return Err(OutOfRange)` before any write, or the state after the command. -/
def locateBody (column row : Int) (s : State) : Except Err State :=
  if InGeometry s.cfg column row then
    let s := s.setCursor (BitVec.ofInt 8 row) (BitVec.ofInt 8 column)
    let address := ddramAddr s.cfg row.toNat column.toNat
    .ok (sendCommand (addressCommand address) s)
  else .error .outOfRange

/-- The single error reaches "the immediate caller" as a result and leaves the state as it was (R121, R124); success
returns Ok. -/
def report (before : State) : Except Err State → State
  | .ok after => after.respond .ok
  | .error e => before.respond (.err e)

/-- The body of NEWLINE (R101); the result of its LOCATE is discarded. -/
def newlineBody (s : State) : State :=
  let s := s.setCursor (nextRow s.cfg s.cursorRow) 0
  match locateBody s.cursorColumn.toNat s.cursorRow.toNat s with
  | .ok after => after
  | .error _ => s

/-- The body of WRITE_CHAR (R100). -/
def writeCharBody (c : Byte) (s : State) : State :=
  if c = s.cfg.newlineChar then newlineBody s
  else
    let s := sendData c s
    let s := s.setCursor s.cursorRow (s.cursorColumn + 1)
    if s.cursorColumn = s.cfg.columns then newlineBody s else s

/-- The body of CLEAR (R111), and of INIT step 8 (R96). -/
def clearBody (s : State) : State :=
  let s := sendCommand 0x01 s
  opWait s.cfg.tLong s

/-- `repeat n times`. -/
def repeatOp (f : State → State) : Nat → State → State
  | 0, s => s
  | n + 1, s => repeatOp f n (f s)

/-- One repetition of INIT step 3 (R93): a nibble frame carrying 0x3, then `Wait(T_LONG)`. -/
def initNibble3Body (s : State) : State :=
  let s := writeNibble 0x3 s
  opWait s.cfg.tLong s

/-- The eight steps of INIT (R91 to R96) and the state after it (R97). -/
def initBody (s : State) : State :=
  let s := setE true s
  let s := setRS false s
  let s := opWait s.cfg.tPowerOn s
  let s := repeatOp initNibble3Body 3 s
  let s := writeNibble 0x2 s
  let s := sendCommand 0x28 s
  let s := sendCommand 0x0C s
  let s := sendCommand 0x06 s
  let s := clearBody s
  (s.setCursor 0 0).setPhase .ready

/-! ## Admission -/

/-- What a request needs of the state before it has any meaning (R133, R142). -/
inductive Need where
  /-- Construction: INIT. -/
  | construction
  /-- An upward operation other than INIT. -/
  | operation
  /-- An emitted item, and whether it is one the block emits at all (R59). -/
  | item (legal : Bool)
  deriving DecidableEq, Repr

/-- The refusal a request meets, if any. R133's order: Busy first, then the phase; the configuration is tested where
INIT's pseudocode tests it (R90), and again for the operations, whose rules hold only with "A well-formed
configuration" (R142 (1); assumption log 7). -/
def State.refusal (need : Need) (s : State) : Option Refusal :=
  if s.pending ≠ [] then some .busy
  else
    match need with
    | .construction =>
      if s.phase = .ready then some .alreadyInitialized else if s.cfg.wf then none else some .badConfig
    | .operation =>
      if s.phase = .uninit then some .notInitialized else if s.cfg.wf then none else some .badConfig
    | .item legal => if legal then none else some .neverEmitted

/-- Run `body` on a request that is not refused; "A refused request changes nothing" (R133). -/
def perform (need : Need) (body : State → State) (s : State) : Host.Outcome State Fault Refusal :=
  match s.refusal need with
  | some r => .refused r
  | none => .next (body s)

end Sys2Proof.Machine
end

