-- ==== Sys2Proof/Machine/Cursor.lean ====
section
/-! DEFINITION. The cursor-control operations (44_cursor_ops.md rules R110 to R113): LOCATE and CLEAR. -/

namespace Sys2Proof.Machine

/-- LOCATE(column, row) (R110). -/
def execLocate (column row : Int) (s : State) : Host.Outcome State Fault Refusal :=
  perform .operation (fun s => report s (locateBody column row s)) s

/-- CLEAR (R111). -/
def execClear (s : State) : Host.Outcome State Fault Refusal :=
  perform .operation (fun s => (clearBody s).respond .noResult) s

end Sys2Proof.Machine
end

