-- ==== Sys2Proof/Machine/Display.lean ====
section
/-! DEFINITION. The emitted items (41_display_commands.md rules R80 to R87): what is sent on the bus for each, and the
wait that follows it. They are transmissions and return no result to the host (assumption log 4). -/

namespace Sys2Proof.Machine

/-- CLEAR_DISPLAY: `ev_command(0x01) ++ [Wait(cfg.T_LONG)]` (R80). -/
def execClearDisplay (s : State) : Host.Outcome State Fault Refusal :=
  perform (.item true) (fun s => opWait s.cfg.tLong (sendCommand 0x01 s)) s

/-- ENTRY_MODE_SET: `ev_command(0x06)` (R81). -/
def execEntryModeSet (s : State) : Host.Outcome State Fault Refusal :=
  perform (.item true) (sendCommand 0x06) s

/-- DISPLAY_CONTROL: `ev_command(0x0C)` (R82). -/
def execDisplayControl (s : State) : Host.Outcome State Fault Refusal :=
  perform (.item true) (sendCommand 0x0C) s

/-- FUNCTION_SET: `ev_command(0x28)` (R83). -/
def execFunctionSet (s : State) : Host.Outcome State Fault Refusal :=
  perform (.item true) (sendCommand 0x28) s

/-- SET_DDRAM_ADDR: `ev_command(0x80 | address)` (R84), for an address in the mapper's image (R59). -/
def execSetDdramAddr (a : Addr) (s : State) : Host.Outcome State Fault Refusal :=
  perform (.item (s.cfg.mapsTo a)) (sendCommand (addressCommand a.toNat)) s

/-- INIT_NIBBLE_3: `ev_nibble(0x3) ++ [Wait(cfg.T_LONG)]` (R85). -/
def execInitNibble3 (s : State) : Host.Outcome State Fault Refusal :=
  perform (.item true) (fun s => opWait s.cfg.tLong (writeNibble 0x3 s)) s

/-- INIT_NIBBLE_2: `ev_nibble(0x2)` (R86). -/
def execInitNibble2 (s : State) : Host.Outcome State Fault Refusal :=
  perform (.item true) (writeNibble 0x2) s

/-- WRITE_DATA: `ev_data(d)` (R87), for `d` other than `NEWLINE_CHAR` (R56, R59). -/
def execWriteData (d : Byte) (s : State) : Host.Outcome State Fault Refusal :=
  perform (.item (decide (d ≠ s.cfg.newlineChar))) (sendData d) s

end Sys2Proof.Machine
end

