-- ==== Sys2Proof/Machine/Init.lean ====
section
/-! DEFINITION. INIT, the construction and initialization protocol (42_init_sequencer.md rules R90 to R97). -/

namespace Sys2Proof.Machine

/-- INIT (R90). -/
def execInit (s : State) : Host.Outcome State Fault Refusal :=
  perform .construction (fun s => (initBody s).respond .noResult) s

end Sys2Proof.Machine
end

