-- ==== Sys2Proof/Machine/Text.lean ====
section
/-! DEFINITION. The character-stream operations (43_text_ops.md rules R100 to R102): WRITE_CHAR, NEWLINE, and the
pseudo-operation WRITE_STRING. -/

namespace Sys2Proof.Machine

/-- WRITE_CHAR(c) (R100): "The return value is `c` in both branches". -/
def execWriteChar (c : Byte) (s : State) : Host.Outcome State Fault Refusal :=
  perform .operation (fun s => (writeCharBody c s).respond (.ret c)) s

/-- NEWLINE (R101). -/
def execNewline (s : State) : Host.Outcome State Fault Refusal :=
  perform .operation (fun s => (newlineBody s).respond .noResult) s

/-- WRITE_STRING(s) (R102): "for i from 0 to length(s) - 1 in order: do WRITE_CHAR(s[i])". -/
def writeString : List Byte → State → Host.Outcome State Fault Refusal
  | [], s => .next s
  | c :: rest, s =>
    match execWriteChar c s with
    | .next t => writeString rest t
    | .fault f => .fault f
    | .refused r => .refused r

end Sys2Proof.Machine
end

