-- ==== Sys2Proof/Machine/Dispatch.lean ====
section
/-! DEFINITION. The meaning of every instruction at the operation level (00_scope.md rule R6), one arm per constructor
of `Instr`. -/

namespace Sys2Proof.Machine

def exec (i : Instr) (s : State) : Host.Outcome State Fault Refusal :=
  match i with
  | .init => Sys2Proof.Machine.execInit s
  | .writeChar c => Sys2Proof.Machine.execWriteChar c s
  | .locate column row => Sys2Proof.Machine.execLocate column row s
  | .clear => Sys2Proof.Machine.execClear s
  | .newline => Sys2Proof.Machine.execNewline s
  | .clearDisplay => Sys2Proof.Machine.execClearDisplay s
  | .entryModeSet => Sys2Proof.Machine.execEntryModeSet s
  | .displayControl => Sys2Proof.Machine.execDisplayControl s
  | .functionSet => Sys2Proof.Machine.execFunctionSet s
  | .setDdramAddr a => Sys2Proof.Machine.execSetDdramAddr a s
  | .initNibble3 => Sys2Proof.Machine.execInitNibble3 s
  | .initNibble2 => Sys2Proof.Machine.execInitNibble2 s
  | .writeData d => Sys2Proof.Machine.execWriteData d s

end Sys2Proof.Machine
end

