-- ==== Sys2Proof/Machine/EventLevel.lean ====
section
/-! DEFINITION. The event-level machine of 40_transfer_primitives.md rule R78: accepting an instruction writes the cursor
fields and the phase "as the operation's rule says" and leaves the instruction's event list in `pending`; each later step
performs one event; the operation returns its result to the host "when pending = [] again". The lists are those of
files 40 to 44, written apart from the operation-level meanings. -/

namespace Sys2Proof.Machine

/-- What each instruction needs of the state to be accepted (R133, R59). -/
def needOf (cfg : Config) : Instr → Need
  | .init => .construction
  | .writeChar _ => .operation
  | .locate _ _ => .operation
  | .clear => .operation
  | .newline => .operation
  | .clearDisplay => .item true
  | .entryModeSet => .item true
  | .displayControl => .item true
  | .functionSet => .item true
  | .setDdramAddr a => .item (cfg.mapsTo a)
  | .initNibble3 => .item true
  | .initNibble2 => .item true
  | .writeData d => .item (decide (d ≠ cfg.newlineChar))

/-- The events of LOCATE at a position (R112): the one command on success, none on failure. -/
def evLocate (cfg : Config) (column row : Int) : List Event :=
  if InGeometry cfg column row then
    evCommand cfg (addressCommand (ddramAddr cfg row.toNat column.toNat))
  else []

/-- The events of NEWLINE from a row: "The net effect equals `LOCATE(0, (old cursor_row + 1) mod rows)`" (R101). -/
def evNewline (cfg : Config) (row : Byte) : List Event := evLocate cfg 0 (nextRow cfg row).toNat

/-- The data branch of WRITE_CHAR reaches `columns` and wraps (R100). -/
def wraps (s : State) : Bool := decide (s.cursorColumn + 1 = s.cfg.columns)

/-- The event list of an accepted instruction. -/
def eventsOf (i : Instr) (s : State) : List Event :=
  match i with
  | .init => evInit s.cfg
  | .writeChar c =>
    if c = s.cfg.newlineChar then evNewline s.cfg s.cursorRow
    else if wraps s then evData s.cfg c ++ evNewline s.cfg s.cursorRow
    else evData s.cfg c
  | .locate column row => evLocate s.cfg column row
  | .clear => evClear s.cfg
  | .newline => evNewline s.cfg s.cursorRow
  | .clearDisplay => evClear s.cfg
  | .entryModeSet => evCommand s.cfg 0x06
  | .displayControl => evCommand s.cfg 0x0C
  | .functionSet => evCommand s.cfg 0x28
  | .setDdramAddr a => evCommand s.cfg (addressCommand a.toNat)
  | .initNibble3 => evInitNibble3 s.cfg
  | .initNibble2 => evNibble s.cfg 0x2
  | .writeData d => evData s.cfg d

/-- The registers an instruction writes on acceptance: the cursor (R14) and the phase (R19). -/
structure Registers where
  cursorRow : Byte
  cursorColumn : Byte
  phase : Phase
  deriving DecidableEq, Repr

/-- The registers of a state. -/
def State.registers (s : State) : Registers := ⟨s.cursorRow, s.cursorColumn, s.phase⟩

/-- Write the registers. -/
def State.setRegisters (r : Registers) (s : State) : State :=
  { s with cursorRow := r.cursorRow, cursorColumn := r.cursorColumn, phase := r.phase }

/-- The cursor fields and phase an accepted instruction leaves. -/
def registersAfter (i : Instr) (s : State) : Registers :=
  match i with
  | .init => ⟨0, 0, .ready⟩
  | .writeChar c =>
    if c = s.cfg.newlineChar ∨ wraps s then ⟨nextRow s.cfg s.cursorRow, 0, s.phase⟩
    else ⟨s.cursorRow, s.cursorColumn + 1, s.phase⟩
  | .locate column row =>
    if InGeometry s.cfg column row then ⟨BitVec.ofInt 8 row, BitVec.ofInt 8 column, s.phase⟩ else s.registers
  | .clear => s.registers
  | .newline => ⟨nextRow s.cfg s.cursorRow, 0, s.phase⟩
  | .clearDisplay => s.registers
  | .entryModeSet => s.registers
  | .displayControl => s.registers
  | .functionSet => s.registers
  | .setDdramAddr _ => s.registers
  | .initNibble3 => s.registers
  | .initNibble2 => s.registers
  | .writeData _ => s.registers

/-- The result an instruction returns to the host (R58, R120); an emitted item returns none. -/
def resultOf (cfg : Config) : Instr → Option Response
  | .init => some .noResult
  | .writeChar c => some (.ret c)
  | .locate column row => some (if InGeometry cfg column row then .ok else .err .outOfRange)
  | .clear => some .noResult
  | .newline => some .noResult
  | .clearDisplay => none
  | .entryModeSet => none
  | .displayControl => none
  | .functionSet => none
  | .setDdramAddr _ => none
  | .initNibble3 => none
  | .initNibble2 => none
  | .writeData _ => none

/-- `complete` of R78: "the operation returns to the host when pending = [] again", and owes nothing more. -/
def complete (s : State) : State :=
  match s.pending with
  | [] => (s.deliver s.returning).setReturning none
  | _ :: _ => s

/-- The state in which an instruction has been accepted (R78): its registers written, its result owed, its events pending.
One that emits nothing (a failed LOCATE) has returned already. -/
def accepted (i : Instr) (s : State) : State :=
  complete (((s.setRegisters (registersAfter i s)).setReturning (resultOf s.cfg i)).setPending (eventsOf i s))

/-- `accept(op)` of R78: "enabled iff pending = []" and the phase allows it. -/
def accept (i : Instr) (s : State) : Host.Outcome State Fault Refusal :=
  match s.refusal (needOf s.cfg i) with
  | some r => .refused r
  | none => .next (accepted i s)

/-- Perform the head of `pending` (R78: `emit(e); pending <- rest`), for a list that begins with it, and return to the
host if it was the last. -/
def performHead (ev : Event) (rest : List Event) (s : State) : State := complete ((s.setPending rest).emit ev)

/-- Complete the operation in flight: perform every pending event in order (R79) and return to the host. -/
def drain (s : State) : State := complete (emitAll s.pending (s.setPending []))

end Sys2Proof.Machine
end

