-- ==== Sys2Proof/Decode.lean ====
section
/-! DEFINITION. The decoder, total on every word of the four formats and rejecting by name (30_encoding.md rules R54 to
R59); after it the encoder, the opcode table as data, and the reading of a word numbered as spec/opcode_table.json
numbers it. -/

namespace Sys2Proof

/-- Why a word is no instruction (R59). -/
inductive Reject where
  /-- REQ19 op 5, 6 or 7: "reserved". -/
  | reservedOp
  /-- A command byte below 0x80 other than the four of R54: "never emitted". -/
  | neverEmittedCommand
  /-- A single nibble other than 0x3 and 0x2 (R55): "never emitted". -/
  | neverEmittedNibble
  deriving DecidableEq, Repr

/-- `op`, bits 18:16 of the request word (R58). -/
def reqOp (w : BitVec 19) : BitVec 3 := w.extractLsb' 16 3

/-- `a`, bits 15:8 of the request word (R58). -/
def reqA (w : BitVec 19) : Byte := w.extractLsb' 8 8

/-- `b`, bits 7:0 of the request word (R58). -/
def reqB (w : BitVec 19) : Byte := w.extractLsb' 0 8

/-- Rule R58's table. Ignored bits "do not take part in decoding". -/
def decodeReq (w : BitVec 19) : Except Reject Instr :=
  match (reqOp w).toNat with
  | 0 => .ok .init
  | 1 => .ok (.writeChar (reqA w))
  | 2 => .ok (.locate (reqA w).toNat (reqB w).toNat)
  | 3 => .ok .clear
  | 4 => .ok .newline
  | _ => .error .reservedOp

/-- Rule R54's table: "The complete list of command bytes". SET_DDRAM_ADDR is `1aaaaaaa`. -/
def decodeCmd (b : Byte) : Except Reject Instr :=
  if b = 0x01 then .ok .clearDisplay
  else if b = 0x06 then .ok .entryModeSet
  else if b = 0x0C then .ok .displayControl
  else if b = 0x28 then .ok .functionSet
  else if b.getLsbD 7 then .ok (.setDdramAddr (b.setWidth 7))
  else .error .neverEmittedCommand

/-- Rule R55's table: "The complete list of single nibbles". -/
def decodeNib (n : Nibble) : Except Reject Instr :=
  if n = 0x3 then .ok .initNibble3
  else if n = 0x2 then .ok .initNibble2
  else .error .neverEmittedNibble

/-- The decoder: the format says which list of rows applies (R50, R61). Format DATA8 has one mnemonic, WRITE_DATA,
pattern `dddddddd` (R56). -/
def decode : PortWord → Except Reject Instr
  | .req19 w => decodeReq w
  | .cmd8 b => decodeCmd b
  | .nib4 n => decodeNib n
  | .data8 d => .ok (.writeData d)

/-- A request word from its three fields (R58). -/
def reqWord (op : BitVec 3) (a b : Byte) : BitVec 19 := op ++ a ++ b

/-- The encoder, from R54 to R58. Ignored fields are written 0 (95_test_vectors.md). -/
def encode : Instr → PortWord
  | .init => .req19 (reqWord 0 0 0)
  | .writeChar c => .req19 (reqWord 1 c 0)
  | .locate column row => .req19 (reqWord 2 (BitVec.ofInt 8 column) (BitVec.ofInt 8 row))
  | .clear => .req19 (reqWord 3 0 0)
  | .newline => .req19 (reqWord 4 0 0)
  | .clearDisplay => .cmd8 0x01
  | .entryModeSet => .cmd8 0x06
  | .displayControl => .cmd8 0x0C
  | .functionSet => .cmd8 0x28
  | .setDdramAddr a => .cmd8 (1#1 ++ a)
  | .initNibble3 => .nib4 0x3
  | .initNibble2 => .nib4 0x2
  | .writeData d => .data8 d

/-! ## The opcode table as data -/

/-- One row of spec/opcode_table.json: its format, its `match` and its `mask`. -/
structure OpRow where
  format : Format
  pattern : Nat
  mask : Nat
  deriving DecidableEq, Repr

/-- A word is an instance of a row: the formats agree and the word's masked bits are the row's pattern. -/
def OpRow.accepts (r : OpRow) (w : PortWord) : Bool :=
  decide (w.format = r.format) && decide (w.bits &&& r.mask = r.pattern)

/-- The row of spec/opcode_table.json an instruction belongs to, `match` and `mask` as the table gives them. -/
def Instr.row : Instr → OpRow
  | .init => ⟨.req19, 0x00000, 0x70000⟩
  | .writeChar _ => ⟨.req19, 0x10000, 0x70000⟩
  | .locate _ _ => ⟨.req19, 0x20000, 0x70000⟩
  | .clear => ⟨.req19, 0x30000, 0x70000⟩
  | .newline => ⟨.req19, 0x40000, 0x70000⟩
  | .clearDisplay => ⟨.cmd8, 0x01, 0xFF⟩
  | .entryModeSet => ⟨.cmd8, 0x06, 0xFF⟩
  | .displayControl => ⟨.cmd8, 0x0C, 0xFF⟩
  | .functionSet => ⟨.cmd8, 0x28, 0xFF⟩
  | .setDdramAddr _ => ⟨.cmd8, 0x80, 0x80⟩
  | .initNibble3 => ⟨.nib4, 0x3, 0xF⟩
  | .initNibble2 => ⟨.nib4, 0x2, 0xF⟩
  | .writeData _ => ⟨.data8, 0x00, 0x00⟩

/-- The 13 rows in the table's order; the operands stand for any. -/
def opcodeTable : List OpRow :=
  [Instr.init, .writeChar 0, .locate 0 0, .clear, .newline, .clearDisplay, .entryModeSet, .displayControl,
    .functionSet, .setDdramAddr 0, .initNibble3, .initNibble2, .writeData 0].map Instr.row

/-! ## A word of the table without its format -/

/-- The word whose bits are `w`, of a table row of `nbits` bits, when the format is not given with it (assumption log
5). A row of more than 8 bits is REQ19; a row of 4 bits is NIB4. Eight bits alone do not tell CMD8, NIB4 and DATA8
apart (R61): they are read as the first of command, nibble, data that names them. -/
def tableWord (nbits w : Nat) : Option PortWord :=
  if 8 < nbits then
    if w < 2 ^ 19 then some (.req19 (BitVec.ofNat 19 w)) else none
  else if nbits ≤ 4 then
    if w < 2 ^ 4 then some (.nib4 (BitVec.ofNat 4 w)) else none
  else if w < 2 ^ 8 then
    match decodeCmd (BitVec.ofNat 8 w), decodeNib (BitVec.ofNat 4 w) with
    | .ok _, _ => some (.cmd8 (BitVec.ofNat 8 w))
    | .error _, .ok _ => if w < 2 ^ 4 then some (.nib4 (BitVec.ofNat 4 w)) else some (.data8 (BitVec.ofNat 8 w))
    | .error _, .error _ => some (.data8 (BitVec.ofNat 8 w))
  else none

/-- The instruction the decoder reads from a word numbered as spec/opcode_table.json numbers it. -/
def decodeTableWord (nbits w : Nat) : Option Instr :=
  match tableWord nbits w with
  | none => none
  | some p => (decode p).toOption

end Sys2Proof
end

