-- ==== Sys2Proof/Machine/Requests.lean ====
section
/-! DEFINITION. The upward interface: the call syntax of 30_encoding.md rule R60 with its one pseudo-operation, how a
request is read, and which requests a host can make (rule R50). -/

namespace Sys2Proof.Machine

/-- The calls of R60. -/
inductive Call where
  /-- Construction: `init()`. -/
  | construct
  /-- `write_char(c)`. -/
  | writeChar (c : Byte)
  /-- `locate(column, row)`. -/
  | locate (column row : Int)
  /-- `clear()`. -/
  | clear
  /-- `newline()`. -/
  | newline
  /-- `write_string(s)`: "a finite list of u8 values" (R102). -/
  | writeString (s : List Byte)
  deriving DecidableEq, Repr

/-- The requests a call stands for: `write_string` "expands to `write_char(s[0]); write_char(s[1]); ...` in order",
every other call to the one operation. -/
def Call.requests : Call → List Request
  | .construct => [.op .init]
  | .writeChar c => [.op (.writeChar c)]
  | .locate column row => [.op (.locate column row)]
  | .clear => [.op .clear]
  | .newline => [.op .newline]
  | .writeString s => s.map fun c => .op (.writeChar c)

/-- The host issues a call: its requests come after those already waiting (R40 (b)). -/
def State.issue (c : Call) (s : State) : State := s.setRequests (s.requests ++ c.requests)

/-- The refusal a rejected word meets (R59, R133 (d)). -/
def refusalOf : Reject → Refusal
  | .reservedOp => .reservedOp
  | .neverEmittedCommand => .neverEmitted
  | .neverEmittedNibble => .neverEmitted

/-- The instruction a request carries. -/
def fetch : Request → Except Reject Instr
  | .word w => decode w
  | .op i => .ok i

/-- A request a host can make: a REQ19 word, or an upward operation. The emitted items and the primitives "are not
callable by the host" (file 40). -/
def Request.fromHost : Request → Bool
  | .word w => decide (w.format = .req19)
  | .op i => i.upward

/-- The boot requirement of an instruction (R142 (3): "INIT run to completion, once"): for an upward operation other
than INIT on a block not yet constructed, the state after INIT; else the state as it is. -/
def boot (i : Instr) (s : State) : State :=
  if s.phase = .uninit ∧ i.upward ∧ i ≠ .init then
    match execInit s with
    | .next t => t
    | .fault _ => s
    | .refused _ => s
  else s

end Sys2Proof.Machine
end

