-- ==== Sys2Proof/Machine/Step.lean ====
section
/-! DEFINITION. One step. The block "executes no stored program" (10_state.md rule R21): where an operation is in flight
the step performs its next event (rule R78); otherwise it takes the host's next request, at the level the machine runs
at (rule R6); with no request it "is idle and waits for the host's first operation" (rule R140). -/

namespace Sys2Proof.Machine

/-- An instruction at the machine's level: whole at the operation level, accepted at the event level (R6). -/
def runAt (i : Instr) (s : State) : Host.Outcome State Fault Refusal :=
  match s.level with
  | .operation => exec i s
  | .event => accept i s

/-- One step. -/
def step (s : State) : Host.Outcome State Fault Refusal :=
  match s.pending with
  | ev :: rest => .next (performHead ev rest s)
  | [] =>
    match s.requests with
    | [] => .next s
    | r :: rest =>
      match fetch r with
      | .error e => .refused (refusalOf e)
      | .ok i => runAt i (s.setRequests rest)

/-- `n` steps, stopping at the first that does not answer a next state. -/
def steps : Nat → State → Host.Outcome State Fault Refusal
  | 0, s => .next s
  | n + 1, s =>
    match step s with
    | .next t => steps n t
    | .fault f => .fault f
    | .refused r => .refused r

/-- `s` with the word `w` of a table row of `nbits` bits as the next request, so that the very next step runs it: the
operation in flight completed, the boot requirement of R142 met where the instruction has one, and the word first
among the requests (assumption log 8). -/
def State.withFetchWord (s : State) (nbits w : Nat) : State :=
  match tableWord nbits w with
  | none => s
  | some p =>
    let s := drain s
    let s := match decode p with
      | .ok i => boot i s
      | .error _ => s
    s.setRequests (.word p :: s.requests)

end Sys2Proof.Machine
end

