-- ==== Sys2Proof/Machine/Flags.lean ====
section
/-! DEFINITION. The block has no flags or condition codes (10_state.md rule R22: "Flags: none" is true of every rule).
What stands in their place is the response of a REQ19 request, 30_encoding.md rule R58: `ret[7:0]` and the `err` bit. -/

namespace Sys2Proof.Machine.Response

/-- `ret[7:0]`, given by WRITE_CHAR only. -/
def retByte : Response → Option Byte
  | .noResult => none
  | .ret c => some c
  | .ok => none
  | .err _ => none

/-- The `err` bit, given by LOCATE only: "0 = Ok, 1 = OutOfRange". -/
def errBit : Response → Option Bit
  | .noResult => none
  | .ret _ => none
  | .ok => some false
  | .err .outOfRange => some true

end Sys2Proof.Machine.Response
end

