-- ==== Sys2Proof/Machine/Observer.lean ====
section
/-! DEFINITION. The derived observer of 20_memory.md rule R43 (`nibbles`, `bytes`, `ddram_writes`, and the display's
pointer of 10_state.md rule R23), and the time of a trace (70_reset_and_hazards.md rules R150 to R152, R70). All are
functions of the trace, "not state of the block". -/

namespace Sys2Proof.Machine

/-- The levels of the three lines; `none` where never written. -/
structure Lines where
  rs : Option Bit
  e : Option Bit
  db : Option Nibble
  deriving DecidableEq, Repr

namespace Lines

/-- "replay trace from rs = e = db = none" (R43). -/
def unwritten : Lines := ⟨none, none, none⟩

/-- An event on the lines: "a line keeps the level of its last write until its next write" (R40 (c)). -/
def apply (l : Lines) : Event → Lines
  | .setRS b => { l with rs := some b }
  | .setE b => { l with e := some b }
  | .setDB n => { l with db := some n }
  | .wait _ => l

/-- The lines after a list of events. -/
def replay (l : Lines) (es : List Event) : Lines := es.foldl apply l

end Lines

/-- The lines of a state. -/
def State.lines (s : State) : Lines := ⟨s.rs, s.e, s.db⟩

/-- The state with its lines at other levels and all else as it is. -/
def State.setLines (l : Lines) (s : State) : State := { s with rs := l.rs, e := l.e, db := l.db }

/-- What an event outputs with the lines as they stand before it: at `SetE(0)` performed while `e = some 1`, the pair
(rs, db). A line never written has no level to output (R24), so that latch outputs nothing. -/
def latch (l : Lines) : Event → List (Bit × Nibble)
  | .setE false =>
    if l.e = some true then
      match l.rs, l.db with
      | some rs, some db => [(rs, db)]
      | _, _ => []
    else []
  | .setE true => []
  | .setRS _ => []
  | .setDB _ => []
  | .wait _ => []

/-- The latched nibbles of a list of events that begins on lines `l`. -/
def nibblesFrom (l : Lines) : List Event → List (Bit × Nibble)
  | [] => []
  | ev :: rest => latch l ev ++ nibblesFrom (l.apply ev) rest

/-- `nibbles(trace)` (R43). -/
def nibbles (trace : List Event) : List (Bit × Nibble) := nibblesFrom Lines.unwritten trace

/-- "pair the rest in order: ((rs1, hi), (rs2, lo)) -> (rs1, hi * 16 + lo)" (R43). DESIGN CHOICE (assumption log 17): R43
does not say what an unpaired last nibble gives; it gives no byte here, so a byte counts once both its nibbles are
latched. -/
def pairNibbles : List (Bit × Nibble) → List (Bit × Byte)
  | (rs, hi) :: (_, lo) :: rest => (rs, joinNibbles hi lo) :: pairNibbles rest
  | [_] => []
  | [] => []

/-- `bytes(trace)` (R43): "drop the first 4 outputs of nibbles(trace)", and pair the rest. DESIGN CHOICE (assumption log
17): R43 defines it "for a trace that begins with INIT's 71 events"; it has a value here for every trace, by the same
rule. -/
def bytes (trace : List Event) : List (Bit × Byte) := pairNibbles ((nibbles trace).drop 4)

/-- The pointer after a store: "entry mode: increment address". At the end of a DDRAM line (0x27, 0x67) and at 0x7F
"a model leaves it unknown" (R43, U7). -/
def nextPointer (a : Addr) : Option Addr :=
  if a = 0x27 ∨ a = 0x67 ∨ a = 0x7F then none else some (a + 1)

/-- The display's pointer after one byte (R43); `none` is unknown. -/
def pointerAfter (ptr : Option Addr) : Bit × Byte → Option Addr
  | (false, b) => if b = 0x01 then some 0 else if b.getLsbD 7 then some (b.setWidth 7) else ptr
  | (true, _) => ptr.bind nextPointer

/-- The display's pointer after a list of bytes. -/
def pointerFrom (ptr : Option Addr) (bs : List (Bit × Byte)) : Option Addr := bs.foldl pointerAfter ptr

/-- The stores of a list of bytes, each with the pointer it stores at. -/
def writesFrom (ptr : Option Addr) : List (Bit × Byte) → List (Option Addr × Byte)
  | [] => []
  | (false, b) :: rest => writesFrom (pointerAfter ptr (false, b)) rest
  | (true, b) :: rest => (ptr, b) :: writesFrom (pointerAfter ptr (true, b)) rest

/-- `ddram_writes(trace)` (R43): "ptr := unknown" at the start. -/
def ddramWrites (trace : List Event) : List (Option Addr × Byte) := writesFrom none (bytes trace)

/-- The display's DDRAM pointer after a trace (R23). -/
def ddramPointer (trace : List Event) : Option Addr := pointerFrom none (bytes trace)

/-! ## Time -/

/-- The bounds of the waits of a list of events, in order. -/
def waits : List Event → List Nat
  | [] => []
  | .wait d :: rest => d :: waits rest
  | .setRS _ :: rest => waits rest
  | .setE _ :: rest => waits rest
  | .setDB _ :: rest => waits rest

/-- The minimum duration of a list of events (R151): the sum of its waits. -/
def minDuration (es : List Event) : Nat := (waits es).sum

/-- The time the waits take, the first having index `k` among the waits of the trace: each lasts its bound and a free
excess (R70, U6). -/
def elapsedFrom (k : Nat) : List Nat → Nat
  | [] => 0
  | d :: rest => d + Config.waitExcess k + elapsedFrom (k + 1) rest

/-- The time a trace takes. -/
def elapsed (trace : List Event) : Nat := elapsedFrom 0 (waits trace)

/-- The minimum time of each enable fall of a list of events that begins at time `t` (R152). -/
def fallTimes (t : Nat) : List Event → List Nat
  | [] => []
  | .wait d :: rest => fallTimes (t + d) rest
  | .setE false :: rest => t :: fallTimes t rest
  | .setE true :: rest => fallTimes t rest
  | .setRS _ :: rest => fallTimes t rest
  | .setDB _ :: rest => fallTimes t rest

end Sys2Proof.Machine
end

