-- ==== Sys2Proof/Machine/Protocol.lean ====
section
/-! DEFINITION. The state machines the spec gives for the bus and for INIT: the nibble frame and the byte frame
(40_transfer_primitives.md rule R78) as acceptors of an event list, and the initialization sequencer
(42_init_sequencer.md rule R98). -/

namespace Sys2Proof.Machine

/-- The states of one nibble frame (R78's first table). `held` says that the wait of at least T_PULSE that leaves the
state has been performed. -/
inductive NibbleState where
  /-- N_IDLE: e = 1. -/
  | nIdle
  /-- N_SETUP: e = 1, the data lines set. -/
  | nSetup (held : Bool)
  /-- N_LOW: e = 0, the data lines still set. -/
  | nLow (held : Bool)
  deriving DecidableEq, Repr

/-- The states of one byte (R78's second table). -/
inductive ByteState where
  | bIdle
  | bHigh
  | bLow
  deriving DecidableEq, Repr

/-- One event in the nibble machine. Between frames a register-select write, a wait and (INIT step 1) raising enable
are allowed; inside a frame only the frame's next event is, with each wait at least T_PULSE. -/
def nibbleNext (cfg : Config) : NibbleState → Event → Option NibbleState
  | .nIdle, .setDB _ => some (.nSetup false)
  | .nIdle, .setRS _ => some .nIdle
  | .nIdle, .wait _ => some .nIdle
  | .nIdle, .setE true => some .nIdle
  | .nSetup false, .wait d => if cfg.tPulse ≤ d then some (.nSetup true) else none
  | .nSetup true, .setE false => some (.nLow false)
  | .nLow false, .wait d => if cfg.tPulse ≤ d then some (.nLow true) else none
  | .nLow true, .setE true => some .nIdle
  | _, _ => none

/-- The nibble machine over a list of events, from N_IDLE; `none` if some event breaks the protocol. -/
def nibbleRun (cfg : Config) (es : List Event) : Option NibbleState :=
  es.foldlM (nibbleNext cfg) .nIdle

/-- One event in the byte machine, beside the nibble machine. A register-select write begins a byte and may stand only
between bytes; each frame's end moves on; no lone nibble is allowed; a wait between frames may stand only between
bytes. -/
def byteNext (cfg : Config) : NibbleState × ByteState → Event → Option (NibbleState × ByteState)
  | (.nIdle, .bIdle), .setRS _ => some (.nIdle, .bHigh)
  | (.nIdle, .bIdle), .wait _ => some (.nIdle, .bIdle)
  | (.nIdle, .bHigh), .setDB _ => some (.nSetup false, .bHigh)
  | (.nIdle, .bLow), .setDB _ => some (.nSetup false, .bLow)
  | (.nLow true, .bHigh), .setE true => some (.nIdle, .bLow)
  | (.nLow true, .bLow), .setE true => some (.nIdle, .bIdle)
  | (.nIdle, _), _ => none
  | (.nLow true, _), _ => none
  | (n, b), ev => (nibbleNext cfg n ev).map fun n' => (n', b)

/-- The byte machine over a list of events, from idle; `none` if some event breaks the protocol. -/
def byteRun (cfg : Config) (es : List Event) : Option (NibbleState × ByteState) :=
  es.foldlM (byteNext cfg) (.nIdle, .bIdle)

/-- The states of the initialization sequencer (R98). -/
inductive SeqState where
  | s0
  | s1
  | s2
  | s3
  | s4
  | s5
  | s6
  | s7
  | s8
  | ready
  deriving DecidableEq, Repr

namespace SeqState

/-- R98's column "does". S3 is its three repetitions. -/
def events (cfg : Config) : SeqState → List Event
  | s0 => []
  | s1 => [.setE true, .setRS false]
  | s2 => [.wait cfg.tPowerOn]
  | s3 => (List.replicate 3 (evInitNibble3 cfg)).flatten
  | s4 => evNibble cfg 0x2
  | s5 => evCommand cfg 0x28
  | s6 => evCommand cfg 0x0C
  | s7 => evCommand cfg 0x06
  | s8 => evCommand cfg 0x01 ++ [.wait cfg.tLong]
  | ready => []

/-- R98's column "leaves to": "a nine-state chain with no branches". -/
def next : SeqState → SeqState
  | s0 => s1
  | s1 => s2
  | s2 => s3
  | s3 => s4
  | s4 => s5
  | s5 => s6
  | s6 => s7
  | s7 => s8
  | s8 => ready
  | ready => ready

/-- The events performed in `n` states of the chain, from `q` on. -/
def chain (cfg : Config) (q : SeqState) : Nat → List Event
  | 0 => []
  | n + 1 => q.events cfg ++ chain cfg q.next n

end SeqState

end Sys2Proof.Machine
end

