-- ==== Sys2Proof/Safety.lean ====
section
/-! DEFINITION. What counts as a safe state of the block: the invariants the spec states of it (10_state.md rules R14,
R16, 20_memory.md rule R37, 30_encoding.md rule R59, 70_reset_and_hazards.md rule R144), over the events performed and
those still pending. -/

namespace Sys2Proof.Machine

/-- The boot requirements of R142 are met and no operation is in flight: the state in which the rules of files 43 and 44
hold. -/
structure State.MayOperate (s : State) : Prop where
  idle : s.pending = []
  ready : s.phase = .ready
  config : s.cfg.wf = true

/-- The state in which INIT may run (R90): construction with a well-formed configuration. -/
structure State.MayConstruct (s : State) : Prop where
  idle : s.pending = []
  uninit : s.phase = .uninit
  config : s.cfg.wf = true

/-- Every event of the block so far, with the rest of the operation in flight. -/
def State.history (s : State) : List Event := s.trace ++ s.pending

/-- The line registers are what the trace's writes leave (R15 to R17, R40 (c)). -/
abbrev State.LinesFollowTrace (s : State) : Prop := s.lines = Lines.unwritten.replay s.trace

/-- The timing contract (R144): every nibble frame of the history is whole and holds its waits. -/
abbrev State.ContractKept (s : State) : Prop := nibbleRun s.cfg s.history = some .nIdle

/-- R14: the cursor is on the geometry once the block is constructed, and the configuration is well-formed (R142). -/
abbrev State.CursorInGeometry (s : State) : Prop :=
  s.phase = .ready → s.cfg.wf = true ∧ s.cursorRow.toNat < s.cfg.rows.toNat
    ∧ s.cursorColumn.toNat < s.cfg.columns.toNat

/-- Only a host makes requests (R50): no item and no primitive among them. -/
abbrev State.HostDriven (s : State) : Prop := s.requests.all Request.fromHost = true

/-- The history of a block driven by a host alone: nothing before INIT (R24), then INIT's 71 events, then whole bytes
(R37, R61). -/
abbrev State.WholeTransfers (s : State) : Prop :=
  match s.phase with
  | .uninit => s.trace = [] ∧ s.pending = [] ∧ s.lines = Lines.unwritten
  | .ready => (evInit s.cfg).isPrefixOf s.history = true
      ∧ byteRun s.cfg (s.history.drop 71) = some (.nIdle, .bIdle)

/-- A byte the block may emit (R54, R56, R59). -/
def mayEmit (cfg : Config) : Bit × Byte → Bool
  | (false, b) =>
    b == 0x01 || b == 0x06 || b == 0x0C || b == 0x28 || (b.getLsbD 7 && cfg.mapsTo (b.setWidth 7))
  | (true, d) => d != cfg.newlineChar

/-- Every byte of the history is one the block may emit (R54, R59, R88). -/
abbrev State.EmitsOnlyListed (s : State) : Prop := (bytes s.history).all (mayEmit s.cfg) = true

/-- A result is owed only while an operation is in flight: it "returns to the host when pending = [] again" (R78). -/
abbrev State.OwesOnlyInFlight (s : State) : Prop := s.pending = [] → s.returning = none

/-- A state a block driven by a host alone may be in. -/
structure State.Safe (s : State) : Prop where
  lines : s.LinesFollowTrace
  contract : s.ContractKept
  cursor : s.CursorInGeometry
  host : s.HostDriven
  transfers : s.WholeTransfers
  emits : s.EmitsOnlyListed
  owes : s.OwesOnlyInFlight

/-- The display's pointer stands at the cursor (R23): the cursor registers are in sync. -/
abbrev State.InSync (s : State) : Prop :=
  ddramPointer s.trace = some (BitVec.ofNat 7 (ddramAddr s.cfg s.cursorRow.toNat s.cursorColumn.toNat))

/-- A function of the state in which no line level decides (R18): from lines at any other levels it refuses the same for
the same reason, and answers the same next state but for its lines. -/
def LinesDoNotDecide (f : State → Host.Outcome State Fault Refusal) : Prop :=
  ∀ (s : State) (l : Lines),
    (∀ t, f s = .next t → ∃ l', f (s.setLines l) = .next (t.setLines l')) ∧
    (∀ r, f s = .refused r → f (s.setLines l) = .refused r)

/-- No cell of a row but its last is the end of a DDRAM line, where the display's pointer is not in the source (R43).
`Config4x20` is such a geometry (R34). -/
def rowsKeepLine (cfg : Config) : Bool :=
  cfg.rowBase.all fun base => (List.range (cfg.columns.toNat - 1)).all fun column =>
    (nextPointer (BitVec.ofNat 7 (base.toNat + column))).isSome

/-- The refusals a host alone can meet (R133 (a) to (d)). Busy cannot be expressed at a step, which presents a request
only between operations (R58), and no item is requested. -/
def hostRefusals : List Refusal := [.reservedOp, .notInitialized, .alreadyInitialized, .badConfig]

end Sys2Proof.Machine
end

