-- ==== Sys2Proof/Certificates/Slice0/Obligations.lean ====
section
/-! DEFINITION. The statements for the provers, from the numbered rules of spec/. Each docstring names the rule; where a
clause rests on a choice of the model or on a decision the spec marks as its own, it says so. -/

section

open Sys2Proof Sys2Proof.Machine

/-! ## Encoding -/

/-- Every operand of every instruction survives encoding (R54 to R58). -/
def Obligations.DecodeOfEncodeIsTheInstruction : Prop :=
  ∀ i : Instr, i.encodable = true → decode (encode i) = .ok i

/-- Decoding is the opcode table read row by row: a word decodes to an instruction exactly where a row of its own format
accepts it, that row is the instruction's, and no other row accepts the word. -/
def Obligations.DecodeFollowsOpcodeTable : Prop :=
  ∀ w : PortWord,
    (∀ i, decode w = .ok i → i.row ∈ opcodeTable ∧ ∀ r ∈ opcodeTable, r.accepts w = true ↔ r = i.row) ∧
    (∀ e, decode w = .error e → ∀ r ∈ opcodeTable, r.accepts w = false)

/-- The request word's fields (R58, R59; the word is the spec's own choice, D12): `op` selects, ignored operands have no
effect, op 5 to 7 are reserved. -/
def Obligations.RequestWordSelectsByOp : Prop :=
  ∀ (op : BitVec 3) (a b : Byte),
    decode (.req19 (op ++ a ++ b)) =
      if op = 0 then .ok .init
      else if op = 1 then .ok (.writeChar a)
      else if op = 2 then .ok (.locate a.toNat b.toNat)
      else if op = 3 then .ok .clear
      else if op = 4 then .ok .newline
      else .error .reservedOp

/-- Words written out from the spec's own examples (95_test_vectors.md P1, P2, P4, V-C1 to V-C11) decode to the
instructions they stand for. -/
def Obligations.ExampleWordsDecode : Prop :=
  decode (.req19 0x00000) = .ok .init ∧ decode (.req19 0x15400) = .ok (.writeChar 0x54) ∧
  decode (.req19 0x21303) = .ok (.locate 19 3) ∧ decode (.req19 0x3ABCD) = .ok .clear ∧
  decode (.req19 0x40000) = .ok .newline ∧ decode (.cmd8 0x01) = .ok .clearDisplay ∧
  decode (.cmd8 0x06) = .ok .entryModeSet ∧ decode (.cmd8 0x0C) = .ok .displayControl ∧
  decode (.cmd8 0x28) = .ok .functionSet ∧ decode (.cmd8 0xE7) = .ok (.setDdramAddr 0x67) ∧
  decode (.nib4 0x3) = .ok .initNibble3 ∧ decode (.nib4 0x2) = .ok .initNibble2 ∧
  decode (.data8 0xFF) = .ok (.writeData 0xFF)

/-! ## The step -/

/-- A step with no operation in flight runs the instruction of the next request, a word that decodes to it or the
operation itself (with any operands, R110 (e)): whole at the operation level, accepted at the event level (R6, R58). -/
def Obligations.StepRunsTheDecodedInstruction : Prop :=
  ∀ (s : State) (i : Instr) (rest : List Request),
    s.pending = [] →
    ((∃ w, decode w = .ok i ∧ s.requests = .word w :: rest) ∨ s.requests = .op i :: rest) →
    (s.level = .operation → step s = exec i { s with requests := rest }) ∧
    (s.level = .event → step s = accept i { s with requests := rest })

/-- A word that is no instruction is refused under its name (R59, R133 (d)). -/
def Obligations.StepRefusesWhatDoesNotDecode : Prop :=
  ∀ (s : State) (w : PortWord) (rest : List Request),
    s.pending = [] → s.requests = .word w :: rest →
    (decode w = .error .reservedOp → step s = .refused .reservedOp) ∧
    (decode w = .error .neverEmittedCommand → step s = .refused .neverEmitted) ∧
    (decode w = .error .neverEmittedNibble → step s = .refused .neverEmitted)

/-- With an operation in flight the step performs its next event, and after the last one the operation returns the result
it owes, and nothing else changes (R78; the fields `response` and `returning` are the model's own, assumption log 3);
with none and no request the block is idle and stays as it is (R140: "after INIT the block is idle and waits"; the
stutter is the model's choice, assumption log 2). -/
def Obligations.StepPerformsNextEventOrIdles : Prop :=
  ∀ s : State,
    let response := fun rest : List Event => if rest = [] then s.returning.getD s.response else s.response
    let returning := fun rest : List Event => if rest = [] then none else s.returning
    (∀ b rest, s.pending = .setRS b :: rest →
      step s = .next { s with rs := some b, trace := s.trace ++ [.setRS b], pending := rest,
                              response := response rest, returning := returning rest }) ∧
    (∀ b rest, s.pending = .setE b :: rest →
      step s = .next { s with e := some b, trace := s.trace ++ [.setE b], pending := rest,
                              response := response rest, returning := returning rest }) ∧
    (∀ n rest, s.pending = .setDB n :: rest →
      step s = .next { s with db := some n, trace := s.trace ++ [.setDB n], pending := rest,
                              response := response rest, returning := returning rest }) ∧
    (∀ d rest, s.pending = .wait d :: rest →
      step s = .next { s with trace := s.trace ++ [.wait d], pending := rest,
                              response := response rest, returning := returning rest }) ∧
    (s.pending = [] → s.requests = [] → step s = .next s)

/-- The word placed as the next request is the instruction the very next step runs, after its boot requirement
(assumption log 8). -/
def Obligations.FetchWordRunsItsInstruction : Prop :=
  ∀ (nbits w : Nat) (i : Instr), decodeTableWord nbits w = some i →
    step (State.reset.withFetchWord nbits w) = exec i (boot i State.reset)

/-! ## Transfer primitives -/

/-- SET_RS, SET_E, SET_DB (R71 to R73): the line takes the level and the write is recorded, whether or not the level
changes. -/
def Obligations.LineWritesDriveOneLine : Prop :=
  ∀ (s : State) (b : Bit) (n : Nibble),
    setRS b s = { s with rs := some b, trace := s.trace ++ [.setRS b] } ∧
    setE b s = { s with e := some b, trace := s.trace ++ [.setE b] } ∧
    setDB n s = { s with db := some n, trace := s.trace ++ [.setDB n] }

/-- WRITE_NIBBLE(v) (R74, R52): five events, the low four bits of any number, enable left high, register-select and all
else unchanged, at least 2 T_PULSE. -/
def Obligations.NibbleFrameIsFiveEvents : Prop :=
  ∀ (v : Nat) (s : State),
    writeNibble v s = { s with
      e := some true, db := some (BitVec.ofNat 4 (v % 16)),
      trace := s.trace ++ [.setDB (BitVec.ofNat 4 (v % 16)), .wait s.cfg.tPulse, .setE false, .wait s.cfg.tPulse,
        .setE true] } ∧
    minDuration (evNibble s.cfg v) = 2 * s.cfg.tPulse

/-- WRITE_BYTE(b) (R75): bits 7:4 first, then bits 3:0, ten events, register-select not written, at least 4 T_PULSE. -/
def Obligations.ByteIsHighNibbleThenLow : Prop :=
  ∀ (b : Byte) (s : State),
    writeByte b s = { s with
      e := some true, db := some (b.extractLsb' 0 4),
      trace := s.trace ++
        [.setDB (b.extractLsb' 4 4), .wait s.cfg.tPulse, .setE false, .wait s.cfg.tPulse, .setE true,
         .setDB (b.extractLsb' 0 4), .wait s.cfg.tPulse, .setE false, .wait s.cfg.tPulse, .setE true] } ∧
    minDuration (evByte s.cfg b) = 4 * s.cfg.tPulse

/-- SEND_COMMAND and SEND_DATA (R76, R77): one register-select write, low for a command and high for data (D5), made
every time (D7), then the byte. -/
def Obligations.SendsSelectRegisterThenByte : Prop :=
  ∀ (b : Byte) (s : State),
    sendCommand b s = { s with
      rs := some false, e := some true, db := some (b.extractLsb' 0 4),
      trace := s.trace ++ .setRS false ::
        [.setDB (b.extractLsb' 4 4), .wait s.cfg.tPulse, .setE false, .wait s.cfg.tPulse, .setE true,
         .setDB (b.extractLsb' 0 4), .wait s.cfg.tPulse, .setE false, .wait s.cfg.tPulse, .setE true] } ∧
    sendData b s = { s with
      rs := some true, e := some true, db := some (b.extractLsb' 0 4),
      trace := s.trace ++ .setRS true ::
        [.setDB (b.extractLsb' 4 4), .wait s.cfg.tPulse, .setE false, .wait s.cfg.tPulse, .setE true,
         .setDB (b.extractLsb' 0 4), .wait s.cfg.tPulse, .setE false, .wait s.cfg.tPulse, .setE true] }

/-! ## INIT -/

/-- INIT completes (R90, R97): its event list is appended, the lines stand at 0, 1, 1, the phase is READY, and the cursor
is (0, 0) (the spec's own decision D2). -/
def Obligations.InitRunsTheProtocol : Prop :=
  ∀ s : State, s.MayConstruct →
    exec .init s = .next { s with
      cursorRow := 0, cursorColumn := 0, rs := some false, e := some true, db := some 0x1, phase := .ready,
      trace := s.trace ++ evInit s.cfg, response := .noResult }

/-- What INIT sends (R90's summary and example, R91 to R96): the nibble 0x3 three times, 0x2 once, then the bytes 0x28,
0x0C, 0x06, 0x01, all with register-select low, whatever the configuration. -/
def Obligations.InitSendsNibblesThenCommands : Prop :=
  ∀ cfg : Config,
    nibbles (evInit cfg) =
      [(false, 0x3), (false, 0x3), (false, 0x3), (false, 0x2), (false, 0x2), (false, 0x8), (false, 0x0), (false, 0xC),
       (false, 0x0), (false, 0x6), (false, 0x0), (false, 0x1)] ∧
    bytes (evInit cfg) = [(false, 0x28), (false, 0x0C), (false, 0x06), (false, 0x01)]

/-- The initialization sequencer of R98 is INIT: nine states in order give its event list and end in READY. -/
def Obligations.SequencerChainIsInit : Prop :=
  ∀ cfg : Config, SeqState.chain cfg .s0 9 = evInit cfg ∧ SeqState.next^[9] .s0 = .ready

/-- INIT's totals and latch times (R99, R151, R152): 71 events, 29 waits, 5 register-select and 25 enable writes, 12
nibbles, T_POWERON + 4 T_LONG + 24 T_PULSE, and the twelve enable falls. -/
def Obligations.InitTimingAndCounts : Prop :=
  ∀ cfg : Config,
    (evInit cfg).length = 71 ∧ (waits (evInit cfg)).length = 29 ∧
    (evInit cfg).countP (fun ev => ev matches .setRS _) = 5 ∧
    (evInit cfg).countP (fun ev => ev matches .setE _) = 25 ∧
    (evInit cfg).countP (fun ev => ev matches .setDB _) = 12 ∧
    minDuration (evInit cfg) = cfg.tPowerOn + 4 * cfg.tLong + 24 * cfg.tPulse ∧
    fallTimes 0 (evInit cfg) =
      let first := cfg.tPowerOn + cfg.tPulse
      let fourth := first + 3 * (cfg.tLong + 2 * cfg.tPulse)
      [first, first + (cfg.tLong + 2 * cfg.tPulse), first + 2 * (cfg.tLong + 2 * cfg.tPulse)] ++
        (List.range 9).map fun k => fourth + k * (2 * cfg.tPulse)

/-- Reset (R24, R140, R141): the state at construction is before INIT, its lines unwritten and its trace empty, with the
4 by 20 configuration; and INIT run on it leaves the display's pointer at the cursor (R97, D2). The cursor's value
before INIT is the model's choice (assumption log 1) and is not claimed. -/
def Obligations.ResetThenInitIsInSync : Prop :=
  State.reset.cfg = Config.config4x20 ∧ State.reset.phase = .uninit ∧ State.reset.lines = ⟨none, none, none⟩ ∧
  State.reset.trace = [] ∧ State.reset.pending = [] ∧
  ∃ t, exec .init State.reset = .next t ∧ t.phase = .ready ∧ t.lines = ⟨some false, some true, some 0x1⟩ ∧
    t.trace.length = 71 ∧ t.InSync

/-! ## Text operations -/

/-- WRITE_CHAR (R100; the result in the newline branch is D15): the newline byte moves to the next row and sends no data;
any other byte is sent and advances the column, and at the last column the wrap follows it. Every field is given. -/
def Obligations.WriteCharSendsAdvancesAndWraps : Prop :=
  ∀ (s : State) (c : Byte), s.MayOperate → s.cursorRow.toNat < s.cfg.rows.toNat →
    let r := (s.cursorRow.toNat + 1) % s.cfg.rows.toNat
    let rowStart := evCommand s.cfg (addressCommand (ddramAddr s.cfg r 0))
    (c = s.cfg.newlineChar →
      exec (.writeChar c) s = .next { s with
        cursorRow := BitVec.ofNat 8 r, cursorColumn := 0, rs := some false, e := some true,
        db := some (lowNibble (ddramAddr s.cfg r 0)), trace := s.trace ++ rowStart, response := .ret c }) ∧
    (c ≠ s.cfg.newlineChar → s.cursorColumn.toNat + 1 = s.cfg.columns.toNat →
      exec (.writeChar c) s = .next { s with
        cursorRow := BitVec.ofNat 8 r, cursorColumn := 0, rs := some false, e := some true,
        db := some (lowNibble (ddramAddr s.cfg r 0)), trace := s.trace ++ evData s.cfg c ++ rowStart,
        response := .ret c }) ∧
    (c ≠ s.cfg.newlineChar → s.cursorColumn.toNat + 1 < s.cfg.columns.toNat →
      exec (.writeChar c) s = .next { s with
        cursorColumn := BitVec.ofNat 8 (s.cursorColumn.toNat + 1), rs := some true, e := some true,
        db := some (lowNibble c.toNat), trace := s.trace ++ evData s.cfg c, response := .ret c })

/-- NEWLINE (R101; admitted as an operation by D17): column 0 of the next row, the last row wrapping to row 0, and the
command that addresses it. -/
def Obligations.NewlineMovesToNextRow : Prop :=
  ∀ s : State, s.MayOperate → s.cursorRow.toNat < s.cfg.rows.toNat →
    let r := (s.cursorRow.toNat + 1) % s.cfg.rows.toNat
    exec .newline s = .next { s with
      cursorRow := BitVec.ofNat 8 r, cursorColumn := 0, rs := some false, e := some true,
      db := some (lowNibble (ddramAddr s.cfg r 0)),
      trace := s.trace ++ evCommand s.cfg (addressCommand (ddramAddr s.cfg r 0)), response := .noResult }

/-- NEWLINE is `LOCATE(0, (old cursor_row + 1) mod rows)` (R101 (d)) and is `write_char(NEWLINE_CHAR)` (D17), but for the
result returned. -/
def Obligations.NewlineIsLocateOfNextRow : Prop :=
  ∀ s : State, s.MayOperate → s.cursorRow.toNat < s.cfg.rows.toNat →
    ∃ t, exec .newline s = .next t ∧
      exec (.locate 0 (((s.cursorRow.toNat + 1) % s.cfg.rows.toNat : Nat) : Int)) s = .next (t.respond .ok) ∧
      exec (.writeChar s.cfg.newlineChar) s = .next (t.respond (.ret s.cfg.newlineChar))

/-- LOCATE then one WRITE_CHAR of a non-newline byte (R103 (a)): the column is one more, or 0 of the next row at the last
column. -/
def Obligations.LocateThenWriteCharAdvances : Prop :=
  ∀ (s : State) (column row : Nat) (c : Byte), s.MayOperate → column < s.cfg.columns.toNat →
    row < s.cfg.rows.toNat → c ≠ s.cfg.newlineChar →
    ∃ t u, exec (.locate column row) s = .next t ∧ exec (.writeChar c) t = .next u ∧
      if column + 1 = s.cfg.columns.toNat then
        u.cursorColumn = 0 ∧ u.cursorRow.toNat = (row + 1) % s.cfg.rows.toNat
      else u.cursorColumn.toNat = column + 1 ∧ u.cursorRow.toNat = row

/-- WRITE_STRING is its requests, one WRITE_CHAR per byte in order (R102): issuing the call and stepping once a character
gives what the expansion gives, stops included; the empty string changes nothing. -/
def Obligations.WriteStringIsRepeatedWriteChar : Prop :=
  ∀ (str : List Byte) (s : State), s.pending = [] → s.requests = [] → s.level = .operation →
    steps str.length (s.issue (.writeString str)) = writeString str s

/-! ## Cursor operations -/

/-- LOCATE on the geometry (R110, R112 (b)): both cursor fields, the one set-address command, Ok; nothing else. -/
def Obligations.LocateMovesCursorAndAddresses : Prop :=
  ∀ (s : State) (column row : Int), s.MayOperate → 0 ≤ column → column < s.cfg.columns.toNat → 0 ≤ row →
    row < s.cfg.rows.toNat →
    exec (.locate column row) s = .next { s with
      cursorRow := BitVec.ofInt 8 row, cursorColumn := BitVec.ofInt 8 column, rs := some false, e := some true,
      db := some (lowNibble ((s.cfg.rowBase.getD row.toNat 0).toNat + column.toNat)),
      trace := s.trace ++
        evCommand s.cfg (0x80#8 ||| BitVec.ofNat 8 ((s.cfg.rowBase.getD row.toNat 0).toNat + column.toNat)),
      response := .ok }

/-- The single error (R124): a LOCATE off the geometry leaves every field of the block as it was, the trace and the lines
among them. The result goes to the caller, here into the field `response`, which is the model's own choice (assumption
log 3). -/
def Obligations.LocateOutOfRangeChangesNothing : Prop :=
  ∀ (s : State) (column row : Int), s.MayOperate →
    (column < 0 ∨ (s.cfg.columns.toNat : Int) ≤ column ∨ row < 0 ∨ (s.cfg.rows.toNat : Int) ≤ row) →
    exec (.locate column row) s = .next { s with response := .err .outOfRange }

/-- After the error "every operation behaves exactly as it would have had the failed LOCATE never been issued" (R125). -/
def Obligations.FailedLocateLeavesNoMark : Prop :=
  ∀ (s t : State) (column row : Int) (i : Instr), s.MayOperate → ¬ InGeometry s.cfg column row →
    exec (.locate column row) s = .next t → i.upward = true → exec i t = exec i s

/-- LOCATE twice (R112 (c)): the same cursor and lines as once, the command sent twice. -/
def Obligations.LocateTwiceIsLocateOnce : Prop :=
  ∀ (s : State) (column row : Int), s.MayOperate → InGeometry s.cfg column row →
    ∃ t es, exec (.locate column row) s = .next t ∧ t.trace = s.trace ++ es ∧
      exec (.locate column row) t = .next { t with trace := s.trace ++ es ++ es }

/-- CLEAR (R111): the command 0x01 and then the long wait; the cursor fields and all else unchanged but for the response,
which is none (R58; decision D12, and the field is the model's own choice, assumption log 3). -/
def Obligations.ClearSendsOneAndWaitsLong : Prop :=
  ∀ s : State, s.MayOperate →
    exec .clear s = .next { s with
      rs := some false, e := some true, db := some 0x1,
      trace := s.trace ++
        [.setRS false, .setDB 0x0, .wait s.cfg.tPulse, .setE false, .wait s.cfg.tPulse, .setE true,
         .setDB 0x1, .wait s.cfg.tPulse, .setE false, .wait s.cfg.tPulse, .setE true, .wait s.cfg.tLong],
      response := .noResult }

/-! ## Emitted items -/

/-- The four fixed command items complete (R80 to R83): the command byte with register-select low, and after 0x01 the
long wait. -/
def Obligations.CommandItemsSendTheirByte : Prop :=
  ∀ s : State, s.pending = [] →
    exec .clearDisplay s = .next { s with
      rs := some false, e := some true, db := some 0x1,
      trace := s.trace ++ evCommand s.cfg 0x01 ++ [.wait s.cfg.tLong] } ∧
    exec .entryModeSet s = .next { s with
      rs := some false, e := some true, db := some 0x6, trace := s.trace ++ evCommand s.cfg 0x06 } ∧
    exec .displayControl s = .next { s with
      rs := some false, e := some true, db := some 0xC, trace := s.trace ++ evCommand s.cfg 0x0C } ∧
    exec .functionSet s = .next { s with
      rs := some false, e := some true, db := some 0x8, trace := s.trace ++ evCommand s.cfg 0x28 }

/-- SET_DDRAM_ADDR (R84): `0x80 | address` with register-select low, for every address the mapper gives; any other
address is "never sent" (R59) and is refused by name. -/
def Obligations.SetDdramAddrSendsItsAddress : Prop :=
  ∀ (s : State) (a : Addr), s.pending = [] →
    (∀ row column, row < s.cfg.rowBase.length → column < s.cfg.columns.toNat →
      ddramAddr s.cfg row column = a.toNat →
      exec (.setDdramAddr a) s = .next { s with
        rs := some false, e := some true, db := some (a.setWidth 4),
        trace := s.trace ++ evCommand s.cfg (0x80#8 ||| a.setWidth 8) }) ∧
    ((∀ row column, row < s.cfg.rowBase.length → column < s.cfg.columns.toNat →
        ddramAddr s.cfg row column ≠ a.toNat) →
      exec (.setDdramAddr a) s = .refused .neverEmitted)

/-- INIT_NIBBLE_3 and INIT_NIBBLE_2 (R85, R86): a lone nibble frame, followed by the long wait for 0x3 only;
register-select is not written. -/
def Obligations.InitNibblesAreLoneFrames : Prop :=
  ∀ s : State, s.pending = [] →
    exec .initNibble3 s = .next { s with
      e := some true, db := some 0x3,
      trace := s.trace ++ [.setDB 0x3, .wait s.cfg.tPulse, .setE false, .wait s.cfg.tPulse, .setE true,
        .wait s.cfg.tLong] } ∧
    exec .initNibble2 s = .next { s with
      e := some true, db := some 0x2,
      trace := s.trace ++ [.setDB 0x2, .wait s.cfg.tPulse, .setE false, .wait s.cfg.tPulse, .setE true] }

/-- WRITE_DATA (R87, R56): the byte with register-select high, for every byte but `NEWLINE_CHAR`, which is never sent as
data and is refused by name (R59). -/
def Obligations.WriteDataSendsItsByte : Prop :=
  ∀ (s : State) (d : Byte), s.pending = [] →
    (d ≠ s.cfg.newlineChar →
      exec (.writeData d) s = .next { s with
        rs := some true, e := some true, db := some (d.setWidth 4), trace := s.trace ++ evData s.cfg d }) ∧
    (d = s.cfg.newlineChar → exec (.writeData d) s = .refused .neverEmitted)

/-! ## Refusals and results -/

/-- R133, in its order: Busy for every instruction; then the phase for the upward operations, before LOCATE's range test
is made; then an ill-formed configuration (decisions D4, D10, D20 of the spec; for the operations in READY the model's
own, assumption log 7). -/
def Obligations.RequestsAreRefusedInOrder : Prop :=
  ∀ (s : State) (i : Instr),
    (s.pending ≠ [] → exec i s = .refused .busy ∧ accept i s = .refused .busy) ∧
    (s.pending = [] → i.upward = true →
      (i = .init → s.phase = .ready → exec i s = .refused .alreadyInitialized) ∧
      (i ≠ .init → s.phase = .uninit → exec i s = .refused .notInitialized) ∧
      (i = .init → s.phase = .uninit → s.cfg.wf = false → exec i s = .refused .badConfig) ∧
      (i ≠ .init → s.phase = .ready → s.cfg.wf = false → exec i s = .refused .badConfig))

/-- The response of each upward operation after INIT (R58, R120; D12, D15, D18): WRITE_CHAR returns its byte, LOCATE the `err` bit,
exactly where it is off the geometry, and the others nothing. -/
def Obligations.ResponsesOfOperations : Prop :=
  ∀ s : State, s.MayOperate →
    (∀ c, ∃ t, exec (.writeChar c) s = .next t ∧ t.response.retByte = some c ∧ t.response.errBit = none) ∧
    (∀ column row, ∃ t, exec (.locate column row) s = .next t ∧ t.response.retByte = none ∧
      (t.response.errBit = some true ↔ ¬ InGeometry s.cfg column row) ∧
      (t.response.errBit = some false ↔ InGeometry s.cfg column row)) ∧
    (∃ t, exec .clear s = .next t ∧ t.response.retByte = none ∧ t.response.errBit = none) ∧
    (∃ t, exec .newline s = .next t ∧ t.response.retByte = none ∧ t.response.errBit = none)

/-! ## Configuration and address mapper -/

/-- Well-formedness is R25's four conditions (the fourth is the spec's decision D10). -/
def Obligations.ConfigWellFormedIsFourConditions : Prop :=
  ∀ cfg : Config, cfg.wf = true ↔
    0 < cfg.rows.toNat ∧ 0 < cfg.columns.toNat ∧ cfg.rowBase.length = cfg.rows.toNat ∧
    ∀ r, r < cfg.rows.toNat → (cfg.rowBase.getD r 0).toNat + cfg.columns.toNat - 1 ≤ 0x7F

/-- The mapper (R31): base plus column, and at most 0x7F in a well-formed configuration (whose fourth condition is the
spec's decision D10). -/
def Obligations.MapperFitsSevenBits : Prop :=
  ∀ (cfg : Config) (row column : Nat), cfg.wf = true → row < cfg.rows.toNat → column < cfg.columns.toNat →
    ddramAddr cfg row column = (cfg.rowBase.getD row 0).toNat + column ∧ ddramAddr cfg row column ≤ 0x7F

/-- The command byte that carries an address (R32): `0x80 | a`, bit 7 is 1, bits 6 to 0 are the address, and
`0x80 | a = 0x80 + a`. -/
def Obligations.AddressCommandCarriesAddress : Prop :=
  ∀ a : Nat, a ≤ 0x7F →
    addressCommand a = 0x80#8 ||| BitVec.ofNat 8 a ∧ (addressCommand a).getLsbD 7 = true ∧
    ((addressCommand a).extractLsb' 0 7).toNat = a ∧ (addressCommand a).toNat = 0x80 + a

/-- R34's map of the 4 by 20 geometry. -/
def Obligations.AddressMapOfFourByTwenty : Prop :=
  ∀ row column, row < 4 → column < 20 →
    ddramAddr Config.config4x20 row column = [0x00, 0x40, 0x14, 0x54].getD row 0 + column ∧
    (addressCommand (ddramAddr Config.config4x20 row column)).toNat = [0x80, 0xC0, 0x94, 0xD4].getD row 0 + column

/-- No step writes the configuration (R11, R12, R42). -/
def Obligations.StepNeverWritesConfig : Prop :=
  ∀ s t : State, step s = .next t → t.cfg = s.cfg

/-! ## The event level -/

/-- R78: an accepted instruction, its pending events performed one a step, ends with no result owed in the state the
operation level reaches in one step, which is that very state where none was owed before (as in every safe state); and
the two levels refuse the same requests for the same reason. -/
def Obligations.EventLevelRefinesOperationLevel : Prop :=
  ∀ (i : Instr) (s : State),
    (∀ t, accept i s = .next t → ∃ u, exec i s = .next u ∧
      steps t.pending.length t = .next (u.setReturning none) ∧ (s.returning = none → u.setReturning none = u)) ∧
    (∀ r, accept i s = .refused r ↔ exec i s = .refused r)

/-- R78: "The event-level and operation-level machines produce the same trace for the same sequence of operations": every
run at the operation level is matched by a run at the event level that ends in the same state but for the level, and but
for a result owed where one was owed before the run (as in no safe state). -/
def Obligations.EventLevelRunsMatchOperationLevel : Prop :=
  ∀ (n : Nat) (s t : State), s.pending = [] → s.level = .operation → steps n s = .next t →
    ∃ m u, steps m (s.setLevel .event) = .next u ∧ u.setReturning none = (t.setLevel .event).setReturning none ∧
      (s.returning = none → u = t.setLevel .event)

/-- Nothing is cancelled, reordered or elided (R79, R40): a step only appends to the trace, and with an operation in
flight it leaves the history (performed and pending) as it is. -/
def Obligations.StepOnlyAppendsEvents : Prop :=
  ∀ s t : State, step s = .next t →
    s.trace <+: t.trace ∧ s.history <+: t.history ∧
    (s.pending ≠ [] → t.history = s.history ∧ t.trace.length = s.trace.length + 1 ∧ t.requests = s.requests)

/-! ## Invariants -/

/-- The state after reset is safe. -/
def Obligations.ResetIsSafe : Prop := State.reset.Safe

/-- Every step of a block driven by its host keeps it safe (R14, R16, R37, R40, R59, R61, R78, R144): lines as the trace's
writes leave them, every frame whole with its waits, the cursor on the geometry, INIT's events first and whole bytes
after them, no byte but those of R54 and R56, and no result owed by an idle block. -/
def Obligations.StepKeepsSafe : Prop :=
  ∀ s t : State, s.Safe → step s = .next t → t.Safe

/-- The lines and the timing contract are kept by every step, whoever makes the requests (R15 to R17, R144). -/
def Obligations.StepKeepsLinesAndContract : Prop :=
  ∀ s t : State, s.LinesFollowTrace → s.ContractKept → step s = .next t → t.LinesFollowTrace ∧ t.ContractKept

/-- A safe block never faults, and refuses only what R133 lists; once constructed, every operation but INIT that the host
requests, by word or by call, is taken (R100: "All other operations are total functions"; R110: the one error is a
result). -/
def Obligations.SafeStepCompletesOrRefuses : Prop :=
  ∀ s : State, s.Safe →
    ((∃ t, step s = .next t) ∨ ∃ r ∈ hostRefusals, step s = .refused r) ∧
    (∀ r i rest, s.pending = [] → s.phase = .ready → s.requests = r :: rest → fetch r = .ok i → i ≠ .init →
      ∃ t, step s = .next t ∧ t.requests = rest)

/-- Between operations enable is high and the nibbles after INIT's four lone ones pair into bytes (R16, R37). -/
def Obligations.IdleEnableHighAndNibblesPaired : Prop :=
  ∀ s : State, s.Safe → s.phase = .ready → s.pending = [] →
    s.e = some true ∧ 12 ≤ (nibbles s.trace).length ∧ 2 ∣ (nibbles s.trace).length

/-- No rule reads a line (R18): two states that differ only in the line levels have the same outcome, and the next states
differ only there; for every instruction at either level, and for the step. -/
def Obligations.LinesNeverDecide : Prop :=
  (∀ i, LinesDoNotDecide (exec i)) ∧ (∀ i, LinesDoNotDecide (accept i)) ∧ LinesDoNotDecide step

/-! ## The display as observed -/

/-- After a successful LOCATE the display's pointer is the cursor's address, and nothing was stored (R23, R43). -/
def Obligations.LocateSynchronises : Prop :=
  ∀ (s : State) (column row : Int), s.Safe → s.MayOperate → InGeometry s.cfg column row →
    ∃ t, exec (.locate column row) s = .next t ∧ t.InSync ∧ ddramWrites t.trace = ddramWrites s.trace

/-- A non-newline character (R43, R103 (c)): written in sync it is stored in the cell the cursor named, on every geometry;
at the last column the wrap re-addresses the display, so the cursor is in sync afterwards whatever it was before; inside
a row it stays in sync where the rows do not cross the end of a DDRAM line (beyond which the source does not say where
the pointer is, U7). -/
def Obligations.WriteCharStoresAtCursor : Prop :=
  ∀ (s : State) (c : Byte), s.Safe → s.MayOperate → c ≠ s.cfg.newlineChar →
    ∃ t, exec (.writeChar c) s = .next t ∧
      (s.InSync → ddramWrites t.trace = ddramWrites s.trace ++
        [(some (BitVec.ofNat 7 (ddramAddr s.cfg s.cursorRow.toNat s.cursorColumn.toNat)), c)]) ∧
      (s.cursorColumn.toNat + 1 = s.cfg.columns.toNat → t.InSync) ∧
      (s.InSync → rowsKeepLine s.cfg = true → t.InSync)

/-- Exactly `columns` non-newline characters from column 0 of a row of a safe block (R103 (b)): they are sent in order,
then the command that addresses the next row, and the cursor ends in sync at column 0 of the next row, on every geometry.
Where the block was in sync and the rows do not cross the end of a DDRAM line, the k-th character lands at the row's base
plus k, the last at the last column. -/
def Obligations.FullRowWrapsAfterLastColumn : Prop :=
  ∀ (s : State) (str : List Byte), s.Safe → s.MayOperate → s.cursorColumn = 0 →
    str.length = s.cfg.columns.toNat → s.cfg.newlineChar ∉ str →
    let r := (s.cursorRow.toNat + 1) % s.cfg.rows.toNat
    ∃ t, writeString str s = .next t ∧ t.cursorColumn = 0 ∧ t.cursorRow.toNat = r ∧ t.InSync ∧
      bytes t.trace = bytes s.trace ++ str.map (fun c => (true, c)) ++
        [(false, addressCommand (ddramAddr s.cfg r 0))] ∧
      (s.InSync → rowsKeepLine s.cfg = true →
        ddramWrites t.trace = ddramWrites s.trace ++
          str.mapIdx fun k c => (some (BitVec.ofNat 7 (ddramAddr s.cfg s.cursorRow.toNat k)), c))

/-- The CLEAR hazard (R143): CLEAR puts the display's pointer at 0 and leaves the cursor, so the two agree afterwards
exactly where the cursor's address is 0. -/
def Obligations.ClearDesynchronisesCursor : Prop :=
  ∀ s : State, s.Safe → s.MayOperate →
    ∃ t, exec .clear s = .next t ∧ t.cursorRow = s.cursorRow ∧ t.cursorColumn = s.cursorColumn ∧
      ddramPointer t.trace = some 0 ∧ ddramWrites t.trace = ddramWrites s.trace ∧
      (t.InSync ↔ ddramAddr s.cfg s.cursorRow.toNat s.cursorColumn.toNat = 0)

/-! ## Time -/

/-- A wait lasts at least its bound (R70; the excess is a free value, U6), so a trace takes at least the sum of its
waits. -/
def Obligations.ElapsedAtLeastMinimum : Prop :=
  ∀ s : State, minDuration s.trace ≤ elapsed s.trace ∧
    ∀ d, elapsed (s.trace ++ [.wait d]) ≥ elapsed s.trace + d

/-- R151's table: the events and the minimum duration each operation adds. -/
def Obligations.OperationsAddTheirDuration : Prop :=
  ∀ s : State, s.MayOperate → s.cursorRow.toNat < s.cfg.rows.toNat →
    let adds := fun (i : Instr) (n : Nat) (d : Nat) =>
      ∃ t es, exec i s = .next t ∧ t.trace = s.trace ++ es ∧ es.length = n ∧ minDuration es = d
    (∀ column row, InGeometry s.cfg column row → adds (.locate column row) 11 (4 * s.cfg.tPulse)) ∧
    (∀ column row, ¬ InGeometry s.cfg column row → adds (.locate column row) 0 0) ∧
    adds .newline 11 (4 * s.cfg.tPulse) ∧
    adds .clear 12 (4 * s.cfg.tPulse + s.cfg.tLong) ∧
    adds (.writeChar s.cfg.newlineChar) 11 (4 * s.cfg.tPulse) ∧
    (∀ c, c ≠ s.cfg.newlineChar → s.cursorColumn + 1 ≠ s.cfg.columns → adds (.writeChar c) 11 (4 * s.cfg.tPulse)) ∧
    (∀ c, c ≠ s.cfg.newlineChar → s.cursorColumn + 1 = s.cfg.columns → adds (.writeChar c) 22 (8 * s.cfg.tPulse))

/-- Two enable falls are at least 2 T_PULSE apart (R152), in every history that keeps the contract. -/
def Obligations.EnableFallsAreSpaced : Prop :=
  ∀ s : State, s.ContractKept →
    (fallTimes 0 s.history).IsChain fun a b => a + 2 * s.cfg.tPulse ≤ b

/-! ## The display after a new row -/

/-- NEWLINE, by its operation or by the newline character, re-addresses the display (R143): the cursor is in sync
afterwards whatever the pointer was, on every geometry, and nothing was stored. -/
def Obligations.NewlineSynchronises : Prop :=
  ∀ s : State, s.Safe → s.MayOperate → ∀ i : Instr, i = .newline ∨ i = .writeChar s.cfg.newlineChar →
    ∃ t, exec i s = .next t ∧ t.InSync ∧ ddramWrites t.trace = ddramWrites s.trace

/-! ## When an operation returns -/

/-- R78, R40: at the event level "the operation returns to the host when pending = [] again". While events of the accepted
instruction are pending the host has no new result; after the last one it has the result the operation level gives, and
nothing more is owed (the fields are the model's own, assumption log 3). -/
def Obligations.ResultReturnsAtCompletion : Prop :=
  ∀ (i : Instr) (s t : State), accept i s = .next t →
    (∀ k u, k < t.pending.length → steps k t = .next u → u.response = s.response ∧ u.pending ≠ []) ∧
    ∃ u v, steps t.pending.length t = .next u ∧ exec i s = .next v ∧ u.response = v.response ∧
      u.returning = none ∧ u.pending = []

/-- Every step of any block keeps it so that a result is owed only while an operation is in flight (R78). -/
def Obligations.StepOwesResultOnlyInFlight : Prop :=
  ∀ s t : State, s.OwesOnlyInFlight → step s = .next t → t.OwesOnlyInFlight

end
end

