-- ==== Sys2Proof/Laws/Decode.lean ====
section
/-! SUPPORT. The fields of a request word (30_encoding.md rule R58): each field is read back, the three make up the
word, and the mask of the opcode table keeps the op field alone. -/

namespace Sys2Proof

theorem append_toNat {m n : Nat} (x : BitVec m) (y : BitVec n) :
    (x ++ y).toNat = x.toNat * 2 ^ n + y.toNat := by
  rw [BitVec.toNat_append, ← Nat.shiftLeft_add_eq_or_of_lt y.isLt, Nat.shiftLeft_eq]

/-- The word as a number. -/
theorem reqWord_toNat (op : BitVec 3) (a b : Byte) :
    (reqWord op a b).toNat = op.toNat * 65536 + a.toNat * 256 + b.toNat := by
  have h : (op ++ a ++ b).toNat = op.toNat * 65536 + a.toNat * 256 + b.toNat := by
    rw [append_toNat, append_toNat]; omega
  exact h

@[simp] theorem reqOp_reqWord (op : BitVec 3) (a b : Byte) : reqOp (reqWord op a b) = op := by
  apply BitVec.eq_of_toNat_eq
  rw [reqOp, BitVec.extractLsb'_toNat, reqWord_toNat, Nat.shiftRight_eq_div_pow]
  have := op.isLt; have := a.isLt; have := b.isLt
  omega

@[simp] theorem reqA_reqWord (op : BitVec 3) (a b : Byte) : reqA (reqWord op a b) = a := by
  apply BitVec.eq_of_toNat_eq
  rw [reqA, BitVec.extractLsb'_toNat, reqWord_toNat, Nat.shiftRight_eq_div_pow]
  have := op.isLt; have := a.isLt; have := b.isLt
  omega

@[simp] theorem reqB_reqWord (op : BitVec 3) (a b : Byte) : reqB (reqWord op a b) = b := by
  apply BitVec.eq_of_toNat_eq
  rw [reqB, BitVec.extractLsb'_toNat, reqWord_toNat, Nat.shiftRight_eq_div_pow]
  have := op.isLt; have := a.isLt; have := b.isLt
  omega

/-- A word is its three fields. -/
theorem reqWord_fields (w : BitVec 19) : reqWord (reqOp w) (reqA w) (reqB w) = w := by
  apply BitVec.eq_of_toNat_eq
  rw [reqWord_toNat]
  simp only [reqOp, reqA, reqB, BitVec.extractLsb'_toNat, Nat.shiftRight_eq_div_pow]
  have := w.isLt
  omega

/-- The rows' mask 0x70000 keeps the op field. -/
theorem reqWord_mask (op : BitVec 3) (a b : Byte) :
    (reqWord op a b).toNat &&& 0x70000 = op.toNat * 0x10000 := by
  have low : a.toNat * 256 + b.toNat < 2 ^ 16 := by have := a.isLt; have := b.isLt; omega
  have split : (reqWord op a b).toNat = (op.toNat <<< 16) ||| (a.toNat * 256 + b.toNat) := by
    rw [reqWord_toNat, ← Nat.shiftLeft_add_eq_or_of_lt low, Nat.shiftLeft_eq]
    omega
  have lowGone : (a.toNat * 256 + b.toNat) &&& (7 <<< 16) = 0 := by
    apply Nat.eq_of_testBit_eq
    intro i
    rw [Nat.testBit_and, Nat.testBit_shiftLeft]
    by_cases hi : 16 ≤ i
    · have : (a.toNat * 256 + b.toNat).testBit i = false :=
        Nat.testBit_lt_two_pow (Nat.lt_of_lt_of_le low (Nat.pow_le_pow_right (by omega) hi))
      simp [this]
    · simp [hi]
  have opKept : op.toNat &&& 7 = op.toNat := by
    clear split lowGone
    revert op; decide
  rw [split, show (0x70000 : Nat) = 7 <<< 16 from rfl, Nat.and_or_distrib_right, lowGone,
    ← Nat.shiftLeft_and_distrib, opKept]
  simp [Nat.shiftLeft_eq]

/-- The eight values of `op`. -/
theorem op_cases (op : BitVec 3) :
    op = 0 ∨ op = 1 ∨ op = 2 ∨ op = 3 ∨ op = 4 ∨ op = 5 ∨ op = 6 ∨ op = 7 := by
  revert op; decide

/-- A u8 operand of the abstract interface is kept by its field (R58). -/
theorem toNat_ofInt_of_u8 {z : Int} (h0 : 0 ≤ z) (h1 : z < 256) : ((BitVec.ofInt 8 z).toNat : Int) = z := by
  rw [BitVec.toNat_ofInt]; simp; omega

end Sys2Proof
end

