-- ==== Sys2Proof/Laws/State.lean ====
section
/-! SUPPORT. One lemma per field per update of the state, each true by rfl, so that no later proof unfolds an update. -/

namespace Sys2Proof.Machine.State

@[simp] theorem setCursor_cfg (row column : Byte) (s : State) : (s.setCursor row column).cfg = s.cfg := rfl
@[simp] theorem setCursor_cursorRow (row column : Byte) (s : State) : (s.setCursor row column).cursorRow = row := rfl
@[simp] theorem setCursor_cursorColumn (row column : Byte) (s : State) : (s.setCursor row column).cursorColumn = column := rfl
@[simp] theorem setCursor_rs (row column : Byte) (s : State) : (s.setCursor row column).rs = s.rs := rfl
@[simp] theorem setCursor_e (row column : Byte) (s : State) : (s.setCursor row column).e = s.e := rfl
@[simp] theorem setCursor_db (row column : Byte) (s : State) : (s.setCursor row column).db = s.db := rfl
@[simp] theorem setCursor_phase (row column : Byte) (s : State) : (s.setCursor row column).phase = s.phase := rfl
@[simp] theorem setCursor_trace (row column : Byte) (s : State) : (s.setCursor row column).trace = s.trace := rfl
@[simp] theorem setCursor_pending (row column : Byte) (s : State) : (s.setCursor row column).pending = s.pending := rfl
@[simp] theorem setCursor_level (row column : Byte) (s : State) : (s.setCursor row column).level = s.level := rfl
@[simp] theorem setCursor_requests (row column : Byte) (s : State) : (s.setCursor row column).requests = s.requests := rfl
@[simp] theorem setCursor_response (row column : Byte) (s : State) : (s.setCursor row column).response = s.response := rfl
@[simp] theorem setCursor_returning (row column : Byte) (s : State) : (s.setCursor row column).returning = s.returning := rfl

@[simp] theorem setPhase_cfg (p : Phase) (s : State) : (s.setPhase p).cfg = s.cfg := rfl
@[simp] theorem setPhase_cursorRow (p : Phase) (s : State) : (s.setPhase p).cursorRow = s.cursorRow := rfl
@[simp] theorem setPhase_cursorColumn (p : Phase) (s : State) : (s.setPhase p).cursorColumn = s.cursorColumn := rfl
@[simp] theorem setPhase_rs (p : Phase) (s : State) : (s.setPhase p).rs = s.rs := rfl
@[simp] theorem setPhase_e (p : Phase) (s : State) : (s.setPhase p).e = s.e := rfl
@[simp] theorem setPhase_db (p : Phase) (s : State) : (s.setPhase p).db = s.db := rfl
@[simp] theorem setPhase_phase (p : Phase) (s : State) : (s.setPhase p).phase = p := rfl
@[simp] theorem setPhase_trace (p : Phase) (s : State) : (s.setPhase p).trace = s.trace := rfl
@[simp] theorem setPhase_pending (p : Phase) (s : State) : (s.setPhase p).pending = s.pending := rfl
@[simp] theorem setPhase_level (p : Phase) (s : State) : (s.setPhase p).level = s.level := rfl
@[simp] theorem setPhase_requests (p : Phase) (s : State) : (s.setPhase p).requests = s.requests := rfl
@[simp] theorem setPhase_response (p : Phase) (s : State) : (s.setPhase p).response = s.response := rfl
@[simp] theorem setPhase_returning (p : Phase) (s : State) : (s.setPhase p).returning = s.returning := rfl

@[simp] theorem setPending_cfg (es : List Event) (s : State) : (s.setPending es).cfg = s.cfg := rfl
@[simp] theorem setPending_cursorRow (es : List Event) (s : State) : (s.setPending es).cursorRow = s.cursorRow := rfl
@[simp] theorem setPending_cursorColumn (es : List Event) (s : State) : (s.setPending es).cursorColumn = s.cursorColumn := rfl
@[simp] theorem setPending_rs (es : List Event) (s : State) : (s.setPending es).rs = s.rs := rfl
@[simp] theorem setPending_e (es : List Event) (s : State) : (s.setPending es).e = s.e := rfl
@[simp] theorem setPending_db (es : List Event) (s : State) : (s.setPending es).db = s.db := rfl
@[simp] theorem setPending_phase (es : List Event) (s : State) : (s.setPending es).phase = s.phase := rfl
@[simp] theorem setPending_trace (es : List Event) (s : State) : (s.setPending es).trace = s.trace := rfl
@[simp] theorem setPending_pending (es : List Event) (s : State) : (s.setPending es).pending = es := rfl
@[simp] theorem setPending_level (es : List Event) (s : State) : (s.setPending es).level = s.level := rfl
@[simp] theorem setPending_requests (es : List Event) (s : State) : (s.setPending es).requests = s.requests := rfl
@[simp] theorem setPending_response (es : List Event) (s : State) : (s.setPending es).response = s.response := rfl
@[simp] theorem setPending_returning (es : List Event) (s : State) : (s.setPending es).returning = s.returning := rfl

@[simp] theorem setRequests_cfg (rs : List Request) (s : State) : (s.setRequests rs).cfg = s.cfg := rfl
@[simp] theorem setRequests_cursorRow (rs : List Request) (s : State) : (s.setRequests rs).cursorRow = s.cursorRow := rfl
@[simp] theorem setRequests_cursorColumn (rs : List Request) (s : State) : (s.setRequests rs).cursorColumn = s.cursorColumn := rfl
@[simp] theorem setRequests_rs (rs : List Request) (s : State) : (s.setRequests rs).rs = s.rs := rfl
@[simp] theorem setRequests_e (rs : List Request) (s : State) : (s.setRequests rs).e = s.e := rfl
@[simp] theorem setRequests_db (rs : List Request) (s : State) : (s.setRequests rs).db = s.db := rfl
@[simp] theorem setRequests_phase (rs : List Request) (s : State) : (s.setRequests rs).phase = s.phase := rfl
@[simp] theorem setRequests_trace (rs : List Request) (s : State) : (s.setRequests rs).trace = s.trace := rfl
@[simp] theorem setRequests_pending (rs : List Request) (s : State) : (s.setRequests rs).pending = s.pending := rfl
@[simp] theorem setRequests_level (rs : List Request) (s : State) : (s.setRequests rs).level = s.level := rfl
@[simp] theorem setRequests_requests (rs : List Request) (s : State) : (s.setRequests rs).requests = rs := rfl
@[simp] theorem setRequests_response (rs : List Request) (s : State) : (s.setRequests rs).response = s.response := rfl
@[simp] theorem setRequests_returning (rs : List Request) (s : State) : (s.setRequests rs).returning = s.returning := rfl

@[simp] theorem setLevel_cfg (l : Level) (s : State) : (s.setLevel l).cfg = s.cfg := rfl
@[simp] theorem setLevel_cursorRow (l : Level) (s : State) : (s.setLevel l).cursorRow = s.cursorRow := rfl
@[simp] theorem setLevel_cursorColumn (l : Level) (s : State) : (s.setLevel l).cursorColumn = s.cursorColumn := rfl
@[simp] theorem setLevel_rs (l : Level) (s : State) : (s.setLevel l).rs = s.rs := rfl
@[simp] theorem setLevel_e (l : Level) (s : State) : (s.setLevel l).e = s.e := rfl
@[simp] theorem setLevel_db (l : Level) (s : State) : (s.setLevel l).db = s.db := rfl
@[simp] theorem setLevel_phase (l : Level) (s : State) : (s.setLevel l).phase = s.phase := rfl
@[simp] theorem setLevel_trace (l : Level) (s : State) : (s.setLevel l).trace = s.trace := rfl
@[simp] theorem setLevel_pending (l : Level) (s : State) : (s.setLevel l).pending = s.pending := rfl
@[simp] theorem setLevel_level (l : Level) (s : State) : (s.setLevel l).level = l := rfl
@[simp] theorem setLevel_requests (l : Level) (s : State) : (s.setLevel l).requests = s.requests := rfl
@[simp] theorem setLevel_response (l : Level) (s : State) : (s.setLevel l).response = s.response := rfl
@[simp] theorem setLevel_returning (l : Level) (s : State) : (s.setLevel l).returning = s.returning := rfl

@[simp] theorem respond_cfg (r : Response) (s : State) : (s.respond r).cfg = s.cfg := rfl
@[simp] theorem respond_cursorRow (r : Response) (s : State) : (s.respond r).cursorRow = s.cursorRow := rfl
@[simp] theorem respond_cursorColumn (r : Response) (s : State) : (s.respond r).cursorColumn = s.cursorColumn := rfl
@[simp] theorem respond_rs (r : Response) (s : State) : (s.respond r).rs = s.rs := rfl
@[simp] theorem respond_e (r : Response) (s : State) : (s.respond r).e = s.e := rfl
@[simp] theorem respond_db (r : Response) (s : State) : (s.respond r).db = s.db := rfl
@[simp] theorem respond_phase (r : Response) (s : State) : (s.respond r).phase = s.phase := rfl
@[simp] theorem respond_trace (r : Response) (s : State) : (s.respond r).trace = s.trace := rfl
@[simp] theorem respond_pending (r : Response) (s : State) : (s.respond r).pending = s.pending := rfl
@[simp] theorem respond_level (r : Response) (s : State) : (s.respond r).level = s.level := rfl
@[simp] theorem respond_requests (r : Response) (s : State) : (s.respond r).requests = s.requests := rfl
@[simp] theorem respond_response (r : Response) (s : State) : (s.respond r).response = r := rfl
@[simp] theorem respond_returning (r : Response) (s : State) : (s.respond r).returning = s.returning := rfl

@[simp] theorem setReturning_cfg (r : Option Response) (s : State) : (s.setReturning r).cfg = s.cfg := rfl
@[simp] theorem setReturning_cursorRow (r : Option Response) (s : State) : (s.setReturning r).cursorRow = s.cursorRow := rfl
@[simp] theorem setReturning_cursorColumn (r : Option Response) (s : State) : (s.setReturning r).cursorColumn = s.cursorColumn := rfl
@[simp] theorem setReturning_rs (r : Option Response) (s : State) : (s.setReturning r).rs = s.rs := rfl
@[simp] theorem setReturning_e (r : Option Response) (s : State) : (s.setReturning r).e = s.e := rfl
@[simp] theorem setReturning_db (r : Option Response) (s : State) : (s.setReturning r).db = s.db := rfl
@[simp] theorem setReturning_phase (r : Option Response) (s : State) : (s.setReturning r).phase = s.phase := rfl
@[simp] theorem setReturning_trace (r : Option Response) (s : State) : (s.setReturning r).trace = s.trace := rfl
@[simp] theorem setReturning_pending (r : Option Response) (s : State) : (s.setReturning r).pending = s.pending := rfl
@[simp] theorem setReturning_level (r : Option Response) (s : State) : (s.setReturning r).level = s.level := rfl
@[simp] theorem setReturning_requests (r : Option Response) (s : State) : (s.setReturning r).requests = s.requests := rfl
@[simp] theorem setReturning_response (r : Option Response) (s : State) : (s.setReturning r).response = s.response := rfl
@[simp] theorem setReturning_returning (r : Option Response) (s : State) : (s.setReturning r).returning = r := rfl

@[simp] theorem deliver_cfg (r : Option Response) (s : State) : (s.deliver r).cfg = s.cfg := rfl
@[simp] theorem deliver_cursorRow (r : Option Response) (s : State) : (s.deliver r).cursorRow = s.cursorRow := rfl
@[simp] theorem deliver_cursorColumn (r : Option Response) (s : State) : (s.deliver r).cursorColumn = s.cursorColumn := rfl
@[simp] theorem deliver_rs (r : Option Response) (s : State) : (s.deliver r).rs = s.rs := rfl
@[simp] theorem deliver_e (r : Option Response) (s : State) : (s.deliver r).e = s.e := rfl
@[simp] theorem deliver_db (r : Option Response) (s : State) : (s.deliver r).db = s.db := rfl
@[simp] theorem deliver_phase (r : Option Response) (s : State) : (s.deliver r).phase = s.phase := rfl
@[simp] theorem deliver_trace (r : Option Response) (s : State) : (s.deliver r).trace = s.trace := rfl
@[simp] theorem deliver_pending (r : Option Response) (s : State) : (s.deliver r).pending = s.pending := rfl
@[simp] theorem deliver_level (r : Option Response) (s : State) : (s.deliver r).level = s.level := rfl
@[simp] theorem deliver_requests (r : Option Response) (s : State) : (s.deliver r).requests = s.requests := rfl
@[simp] theorem deliver_response (r : Option Response) (s : State) : (s.deliver r).response = r.getD s.response := rfl
@[simp] theorem deliver_returning (r : Option Response) (s : State) : (s.deliver r).returning = s.returning := rfl

@[simp] theorem emit_setRS_cfg (b : Bit) (s : State) : (s.emit (.setRS b)).cfg = s.cfg := rfl
@[simp] theorem emit_setRS_cursorRow (b : Bit) (s : State) : (s.emit (.setRS b)).cursorRow = s.cursorRow := rfl
@[simp] theorem emit_setRS_cursorColumn (b : Bit) (s : State) : (s.emit (.setRS b)).cursorColumn = s.cursorColumn := rfl
@[simp] theorem emit_setRS_rs (b : Bit) (s : State) : (s.emit (.setRS b)).rs = some b := rfl
@[simp] theorem emit_setRS_e (b : Bit) (s : State) : (s.emit (.setRS b)).e = s.e := rfl
@[simp] theorem emit_setRS_db (b : Bit) (s : State) : (s.emit (.setRS b)).db = s.db := rfl
@[simp] theorem emit_setRS_phase (b : Bit) (s : State) : (s.emit (.setRS b)).phase = s.phase := rfl
@[simp] theorem emit_setRS_trace (b : Bit) (s : State) : (s.emit (.setRS b)).trace = s.trace ++ [.setRS b] := rfl
@[simp] theorem emit_setRS_pending (b : Bit) (s : State) : (s.emit (.setRS b)).pending = s.pending := rfl
@[simp] theorem emit_setRS_level (b : Bit) (s : State) : (s.emit (.setRS b)).level = s.level := rfl
@[simp] theorem emit_setRS_requests (b : Bit) (s : State) : (s.emit (.setRS b)).requests = s.requests := rfl
@[simp] theorem emit_setRS_response (b : Bit) (s : State) : (s.emit (.setRS b)).response = s.response := rfl
@[simp] theorem emit_setRS_returning (b : Bit) (s : State) : (s.emit (.setRS b)).returning = s.returning := rfl

@[simp] theorem emit_setE_cfg (b : Bit) (s : State) : (s.emit (.setE b)).cfg = s.cfg := rfl
@[simp] theorem emit_setE_cursorRow (b : Bit) (s : State) : (s.emit (.setE b)).cursorRow = s.cursorRow := rfl
@[simp] theorem emit_setE_cursorColumn (b : Bit) (s : State) : (s.emit (.setE b)).cursorColumn = s.cursorColumn := rfl
@[simp] theorem emit_setE_rs (b : Bit) (s : State) : (s.emit (.setE b)).rs = s.rs := rfl
@[simp] theorem emit_setE_e (b : Bit) (s : State) : (s.emit (.setE b)).e = some b := rfl
@[simp] theorem emit_setE_db (b : Bit) (s : State) : (s.emit (.setE b)).db = s.db := rfl
@[simp] theorem emit_setE_phase (b : Bit) (s : State) : (s.emit (.setE b)).phase = s.phase := rfl
@[simp] theorem emit_setE_trace (b : Bit) (s : State) : (s.emit (.setE b)).trace = s.trace ++ [.setE b] := rfl
@[simp] theorem emit_setE_pending (b : Bit) (s : State) : (s.emit (.setE b)).pending = s.pending := rfl
@[simp] theorem emit_setE_level (b : Bit) (s : State) : (s.emit (.setE b)).level = s.level := rfl
@[simp] theorem emit_setE_requests (b : Bit) (s : State) : (s.emit (.setE b)).requests = s.requests := rfl
@[simp] theorem emit_setE_response (b : Bit) (s : State) : (s.emit (.setE b)).response = s.response := rfl
@[simp] theorem emit_setE_returning (b : Bit) (s : State) : (s.emit (.setE b)).returning = s.returning := rfl

@[simp] theorem emit_setDB_cfg (n : Nibble) (s : State) : (s.emit (.setDB n)).cfg = s.cfg := rfl
@[simp] theorem emit_setDB_cursorRow (n : Nibble) (s : State) : (s.emit (.setDB n)).cursorRow = s.cursorRow := rfl
@[simp] theorem emit_setDB_cursorColumn (n : Nibble) (s : State) : (s.emit (.setDB n)).cursorColumn = s.cursorColumn := rfl
@[simp] theorem emit_setDB_rs (n : Nibble) (s : State) : (s.emit (.setDB n)).rs = s.rs := rfl
@[simp] theorem emit_setDB_e (n : Nibble) (s : State) : (s.emit (.setDB n)).e = s.e := rfl
@[simp] theorem emit_setDB_db (n : Nibble) (s : State) : (s.emit (.setDB n)).db = some n := rfl
@[simp] theorem emit_setDB_phase (n : Nibble) (s : State) : (s.emit (.setDB n)).phase = s.phase := rfl
@[simp] theorem emit_setDB_trace (n : Nibble) (s : State) : (s.emit (.setDB n)).trace = s.trace ++ [.setDB n] := rfl
@[simp] theorem emit_setDB_pending (n : Nibble) (s : State) : (s.emit (.setDB n)).pending = s.pending := rfl
@[simp] theorem emit_setDB_level (n : Nibble) (s : State) : (s.emit (.setDB n)).level = s.level := rfl
@[simp] theorem emit_setDB_requests (n : Nibble) (s : State) : (s.emit (.setDB n)).requests = s.requests := rfl
@[simp] theorem emit_setDB_response (n : Nibble) (s : State) : (s.emit (.setDB n)).response = s.response := rfl
@[simp] theorem emit_setDB_returning (n : Nibble) (s : State) : (s.emit (.setDB n)).returning = s.returning := rfl

@[simp] theorem emit_wait_cfg (d : Nat) (s : State) : (s.emit (.wait d)).cfg = s.cfg := rfl
@[simp] theorem emit_wait_cursorRow (d : Nat) (s : State) : (s.emit (.wait d)).cursorRow = s.cursorRow := rfl
@[simp] theorem emit_wait_cursorColumn (d : Nat) (s : State) : (s.emit (.wait d)).cursorColumn = s.cursorColumn := rfl
@[simp] theorem emit_wait_rs (d : Nat) (s : State) : (s.emit (.wait d)).rs = s.rs := rfl
@[simp] theorem emit_wait_e (d : Nat) (s : State) : (s.emit (.wait d)).e = s.e := rfl
@[simp] theorem emit_wait_db (d : Nat) (s : State) : (s.emit (.wait d)).db = s.db := rfl
@[simp] theorem emit_wait_phase (d : Nat) (s : State) : (s.emit (.wait d)).phase = s.phase := rfl
@[simp] theorem emit_wait_trace (d : Nat) (s : State) : (s.emit (.wait d)).trace = s.trace ++ [.wait d] := rfl
@[simp] theorem emit_wait_pending (d : Nat) (s : State) : (s.emit (.wait d)).pending = s.pending := rfl
@[simp] theorem emit_wait_level (d : Nat) (s : State) : (s.emit (.wait d)).level = s.level := rfl
@[simp] theorem emit_wait_requests (d : Nat) (s : State) : (s.emit (.wait d)).requests = s.requests := rfl
@[simp] theorem emit_wait_response (d : Nat) (s : State) : (s.emit (.wait d)).response = s.response := rfl
@[simp] theorem emit_wait_returning (d : Nat) (s : State) : (s.emit (.wait d)).returning = s.returning := rfl

/-! ## An event leaves everything but the lines and the trace -/

@[simp] theorem emit_cfg (ev : Event) (s : State) : (s.emit ev).cfg = s.cfg := by cases ev <;> rfl
@[simp] theorem emit_cursorRow (ev : Event) (s : State) : (s.emit ev).cursorRow = s.cursorRow := by cases ev <;> rfl
@[simp] theorem emit_cursorColumn (ev : Event) (s : State) : (s.emit ev).cursorColumn = s.cursorColumn := by cases ev <;> rfl
@[simp] theorem emit_phase (ev : Event) (s : State) : (s.emit ev).phase = s.phase := by cases ev <;> rfl
@[simp] theorem emit_pending (ev : Event) (s : State) : (s.emit ev).pending = s.pending := by cases ev <;> rfl
@[simp] theorem emit_level (ev : Event) (s : State) : (s.emit ev).level = s.level := by cases ev <;> rfl
@[simp] theorem emit_requests (ev : Event) (s : State) : (s.emit ev).requests = s.requests := by cases ev <;> rfl
@[simp] theorem emit_response (ev : Event) (s : State) : (s.emit ev).response = s.response := by cases ev <;> rfl
@[simp] theorem emit_returning (ev : Event) (s : State) : (s.emit ev).returning = s.returning := by cases ev <;> rfl

@[simp] theorem emit_trace (ev : Event) (s : State) : (s.emit ev).trace = s.trace ++ [ev] := by cases ev <;> rfl

/-! ## Updates of different fields commute -/

theorem respond_setCursor (r : Response) (row column : Byte) (s : State) :
    (s.setCursor row column).respond r = (s.respond r).setCursor row column := rfl

@[simp] theorem respond_respond (r r' : Response) (s : State) : (s.respond r).respond r' = s.respond r' := rfl

@[simp] theorem setCursor_setCursor (row column row' column' : Byte) (s : State) :
    (s.setCursor row column).setCursor row' column' = s.setCursor row' column' := rfl

@[simp] theorem setPending_setPending (es es' : List Event) (s : State) :
    (s.setPending es).setPending es' = s.setPending es' := rfl

theorem emit_setCursor (ev : Event) (row column : Byte) (s : State) :
    (s.setCursor row column).emit ev = (s.emit ev).setCursor row column := by cases ev <;> rfl

theorem emit_setPhase (ev : Event) (p : Phase) (s : State) :
    (s.setPhase p).emit ev = (s.emit ev).setPhase p := by cases ev <;> rfl

theorem emit_setPending (ev : Event) (es : List Event) (s : State) :
    (s.setPending es).emit ev = (s.emit ev).setPending es := by cases ev <;> rfl

theorem emit_setRequests (ev : Event) (rs : List Request) (s : State) :
    (s.setRequests rs).emit ev = (s.emit ev).setRequests rs := by cases ev <;> rfl

theorem emit_setLevel (ev : Event) (l : Level) (s : State) :
    (s.setLevel l).emit ev = (s.emit ev).setLevel l := by cases ev <;> rfl

theorem emit_respond (ev : Event) (r : Response) (s : State) :
    (s.respond r).emit ev = (s.emit ev).respond r := by cases ev <;> rfl

theorem emit_setReturning (ev : Event) (r : Option Response) (s : State) :
    (s.setReturning r).emit ev = (s.emit ev).setReturning r := by cases ev <;> rfl

theorem emit_deliver (ev : Event) (r : Option Response) (s : State) :
    (s.deliver r).emit ev = (s.emit ev).deliver r := by cases ev <;> rfl

@[simp] theorem setReturning_setReturning (r r' : Option Response) (s : State) :
    (s.setReturning r).setReturning r' = s.setReturning r' := rfl

@[simp] theorem deliver_none (s : State) : s.deliver none = s := rfl

@[simp] theorem deliver_some (r : Response) (s : State) : s.deliver (some r) = s.respond r := rfl

theorem setReturning_self (s : State) (r : Option Response) (h : s.returning = r) : s.setReturning r = s := by
  subst h; rfl

/-- An update that writes what is there changes nothing. -/
theorem setPending_self (s : State) (es : List Event) (h : s.pending = es) : s.setPending es = s := by
  subst h; rfl

end Sys2Proof.Machine.State
end

