-- ==== Sys2Proof/Laws/Ops.lean ====
section
/-! SUPPORT. One lemma per shared operation of Machine/Ops.lean that says everything it does: the primitives are their
event lists performed in order, performing a list is one update of lines and trace, the bodies of the operations are a
register update and an event list, and admission either refuses or runs the body. -/

namespace Sys2Proof.Machine

/-! ## Performing a list of events -/

@[simp] theorem emitAll_nil (s : State) : emitAll [] s = s := rfl

@[simp] theorem emitAll_cons (ev : Event) (es : List Event) (s : State) :
    emitAll (ev :: es) s = emitAll es (s.emit ev) := rfl

theorem emitAll_append (es es' : List Event) (s : State) : emitAll (es ++ es') s = emitAll es' (emitAll es s) := by
  induction es generalizing s with
  | nil => rfl
  | cons ev es ih => simp [ih]

@[simp] theorem emit_lines (ev : Event) (s : State) : (s.emit ev).lines = s.lines.apply ev := by cases ev <;> rfl

@[simp] theorem replay_nil (l : Lines) : l.replay [] = l := rfl

@[simp] theorem replay_cons (l : Lines) (ev : Event) (es : List Event) :
    l.replay (ev :: es) = (l.apply ev).replay es := rfl

theorem replay_append (l : Lines) (es es' : List Event) : l.replay (es ++ es') = (l.replay es).replay es' := by
  simp [Lines.replay, List.foldl_append]

/-- Performing events changes the lines as the events say, appends them to the trace, and changes nothing else. -/
theorem emitAll_eq (es : List Event) (s : State) :
    emitAll es s = { s with
      rs := (s.lines.replay es).rs, e := (s.lines.replay es).e, db := (s.lines.replay es).db,
      trace := s.trace ++ es } := by
  induction es generalizing s with
  | nil => simp [State.lines]
  | cons ev es ih =>
    rw [emitAll_cons, ih, replay_cons, emit_lines]
    cases ev <;> simp [State.emit]

@[simp] theorem emitAll_cfg (es : List Event) (s : State) : (emitAll es s).cfg = s.cfg := by rw [emitAll_eq]

@[simp] theorem emitAll_cursorRow (es : List Event) (s : State) : (emitAll es s).cursorRow = s.cursorRow := by
  rw [emitAll_eq]

@[simp] theorem emitAll_cursorColumn (es : List Event) (s : State) :
    (emitAll es s).cursorColumn = s.cursorColumn := by rw [emitAll_eq]

@[simp] theorem emitAll_phase (es : List Event) (s : State) : (emitAll es s).phase = s.phase := by rw [emitAll_eq]

@[simp] theorem emitAll_trace (es : List Event) (s : State) : (emitAll es s).trace = s.trace ++ es := by
  rw [emitAll_eq]

@[simp] theorem emitAll_pending (es : List Event) (s : State) : (emitAll es s).pending = s.pending := by
  rw [emitAll_eq]

@[simp] theorem emitAll_level (es : List Event) (s : State) : (emitAll es s).level = s.level := by rw [emitAll_eq]

@[simp] theorem emitAll_requests (es : List Event) (s : State) : (emitAll es s).requests = s.requests := by
  rw [emitAll_eq]

@[simp] theorem emitAll_returning (es : List Event) (s : State) : (emitAll es s).returning = s.returning := by
  rw [emitAll_eq]

@[simp] theorem emitAll_response (es : List Event) (s : State) : (emitAll es s).response = s.response := by
  rw [emitAll_eq]

@[simp] theorem emitAll_lines (es : List Event) (s : State) : (emitAll es s).lines = s.lines.replay es := by
  rw [emitAll_eq]; rfl

theorem emitAll_setCursor (es : List Event) (row column : Byte) (s : State) :
    emitAll es (s.setCursor row column) = (emitAll es s).setCursor row column := by
  simp only [emitAll_eq]; rfl

theorem emitAll_setPhase (es : List Event) (p : Phase) (s : State) :
    emitAll es (s.setPhase p) = (emitAll es s).setPhase p := by
  simp only [emitAll_eq]; rfl

theorem emitAll_respond (es : List Event) (r : Response) (s : State) :
    emitAll es (s.respond r) = (emitAll es s).respond r := by
  simp only [emitAll_eq]; rfl

theorem emitAll_setReturning (es : List Event) (r : Option Response) (s : State) :
    emitAll es (s.setReturning r) = (emitAll es s).setReturning r := by
  simp only [emitAll_eq]; rfl

theorem emitAll_deliver (es : List Event) (r : Option Response) (s : State) :
    emitAll es (s.deliver r) = (emitAll es s).deliver r := by
  simp only [emitAll_eq]; rfl

theorem emitAll_setPending (es es' : List Event) (s : State) :
    emitAll es (s.setPending es') = (emitAll es s).setPending es' := by
  simp only [emitAll_eq]; rfl

theorem emitAll_setLevel (es : List Event) (l : Level) (s : State) :
    emitAll es (s.setLevel l) = (emitAll es s).setLevel l := by
  simp only [emitAll_eq]; rfl

theorem emitAll_setRequests (es : List Event) (rs : List Request) (s : State) :
    emitAll es (s.setRequests rs) = (emitAll es s).setRequests rs := by
  simp only [emitAll_eq]; rfl

/-! ## Writing the lines -/

@[simp] theorem setLines_cfg (l : Lines) (s : State) : (s.setLines l).cfg = s.cfg := rfl
@[simp] theorem setLines_cursorRow (l : Lines) (s : State) : (s.setLines l).cursorRow = s.cursorRow := rfl
@[simp] theorem setLines_cursorColumn (l : Lines) (s : State) : (s.setLines l).cursorColumn = s.cursorColumn := rfl
@[simp] theorem setLines_lines (l : Lines) (s : State) : (s.setLines l).lines = l := rfl
@[simp] theorem setLines_phase (l : Lines) (s : State) : (s.setLines l).phase = s.phase := rfl
@[simp] theorem setLines_trace (l : Lines) (s : State) : (s.setLines l).trace = s.trace := rfl
@[simp] theorem setLines_pending (l : Lines) (s : State) : (s.setLines l).pending = s.pending := rfl
@[simp] theorem setLines_level (l : Lines) (s : State) : (s.setLines l).level = s.level := rfl
@[simp] theorem setLines_requests (l : Lines) (s : State) : (s.setLines l).requests = s.requests := rfl
@[simp] theorem setLines_response (l : Lines) (s : State) : (s.setLines l).response = s.response := rfl
@[simp] theorem setLines_returning (l : Lines) (s : State) : (s.setLines l).returning = s.returning := rfl

theorem emit_setLines (ev : Event) (l : Lines) (s : State) :
    (s.setLines l).emit ev = (s.emit ev).setLines (l.apply ev) := by cases ev <;> rfl

/-- Performing events from other lines: the same but for the lines, which the events leave where they leave those. -/
theorem emitAll_setLines (es : List Event) (l : Lines) (s : State) :
    emitAll es (s.setLines l) = (emitAll es s).setLines (l.replay es) := by
  simp only [emitAll_eq]; rfl

/-! ## Writing the registers -/

@[simp] theorem setRegisters_cfg (r : Registers) (s : State) : (s.setRegisters r).cfg = s.cfg := rfl

@[simp] theorem setRegisters_cursorRow (r : Registers) (s : State) :
    (s.setRegisters r).cursorRow = r.cursorRow := rfl

@[simp] theorem setRegisters_cursorColumn (r : Registers) (s : State) :
    (s.setRegisters r).cursorColumn = r.cursorColumn := rfl

@[simp] theorem setRegisters_lines (r : Registers) (s : State) : (s.setRegisters r).lines = s.lines := rfl

@[simp] theorem setRegisters_phase (r : Registers) (s : State) : (s.setRegisters r).phase = r.phase := rfl

@[simp] theorem setRegisters_trace (r : Registers) (s : State) : (s.setRegisters r).trace = s.trace := rfl

@[simp] theorem setRegisters_pending (r : Registers) (s : State) : (s.setRegisters r).pending = s.pending := rfl

@[simp] theorem setRegisters_level (r : Registers) (s : State) : (s.setRegisters r).level = s.level := rfl

@[simp] theorem setRegisters_requests (r : Registers) (s : State) : (s.setRegisters r).requests = s.requests := rfl

@[simp] theorem setRegisters_response (r : Registers) (s : State) : (s.setRegisters r).response = s.response := rfl

@[simp] theorem setRegisters_returning (r : Registers) (s : State) : (s.setRegisters r).returning = s.returning := rfl

/-- A cursor update is a write of the registers. -/
theorem setCursor_eq (row column : Byte) (s : State) :
    s.setCursor row column = s.setRegisters ⟨row, column, s.phase⟩ := rfl

theorem setRegisters_self (s : State) : s.setRegisters s.registers = s := rfl

/-! ## Completion -/

theorem complete_of_idle {s : State} (h : s.pending = []) :
    complete s = (s.deliver s.returning).setReturning none := by simp only [complete, h]

theorem complete_of_pending {s : State} (h : s.pending ≠ []) : complete s = s := by
  cases hp : s.pending with
  | nil => exact absurd hp h
  | cons ev rest => simp only [complete, hp]

/-- Completion changes the result and what is owed of it, and nothing else. -/
theorem complete_eq (s : State) : complete s = { s with
    response := if s.pending = [] then s.returning.getD s.response else s.response,
    returning := if s.pending = [] then none else s.returning } := by
  by_cases h : s.pending = []
  · rw [complete_of_idle h, if_pos h, if_pos h]; rfl
  · rw [complete_of_pending h, if_neg h, if_neg h]

@[simp] theorem complete_cfg (s : State) : (complete s).cfg = s.cfg := by rw [complete_eq]
@[simp] theorem complete_cursorRow (s : State) : (complete s).cursorRow = s.cursorRow := by rw [complete_eq]
@[simp] theorem complete_cursorColumn (s : State) : (complete s).cursorColumn = s.cursorColumn := by rw [complete_eq]
@[simp] theorem complete_lines (s : State) : (complete s).lines = s.lines := by rw [complete_eq]; rfl
@[simp] theorem complete_phase (s : State) : (complete s).phase = s.phase := by rw [complete_eq]
@[simp] theorem complete_trace (s : State) : (complete s).trace = s.trace := by rw [complete_eq]
@[simp] theorem complete_pending (s : State) : (complete s).pending = s.pending := by rw [complete_eq]
@[simp] theorem complete_level (s : State) : (complete s).level = s.level := by rw [complete_eq]
@[simp] theorem complete_requests (s : State) : (complete s).requests = s.requests := by rw [complete_eq]

theorem complete_response (s : State) :
    (complete s).response = if s.pending = [] then s.returning.getD s.response else s.response := by rw [complete_eq]

theorem complete_returning (s : State) :
    (complete s).returning = if s.pending = [] then none else s.returning := by rw [complete_eq]

theorem complete_setLines (l : Lines) (s : State) : complete (s.setLines l) = (complete s).setLines l := by
  simp only [complete_eq]; rfl

theorem complete_setRequests (rs : List Request) (s : State) :
    complete (s.setRequests rs) = (complete s).setRequests rs := by simp only [complete_eq]; rfl

/-! ## The primitives are their event lists -/

theorem opWait_eq (d : Nat) (s : State) : opWait d s = emitAll [.wait d] s := rfl

theorem setRS_eq (b : Bit) (s : State) : setRS b s = emitAll [.setRS b] s := rfl

theorem setE_eq (b : Bit) (s : State) : setE b s = emitAll [.setE b] s := rfl

theorem writeNibble_eq (v : Nat) (s : State) : writeNibble v s = emitAll (evNibble s.cfg v) s := rfl

theorem writeByte_eq (b : Byte) (s : State) : writeByte b s = emitAll (evByte s.cfg b) s := by
  simp [writeByte, writeNibble_eq, evByte, emitAll_append]

theorem sendCommand_eq (b : Byte) (s : State) : sendCommand b s = emitAll (evCommand s.cfg b) s := by
  simp [sendCommand, setRS_eq, writeByte_eq, evCommand]

theorem sendData_eq (b : Byte) (s : State) : sendData b s = emitAll (evData s.cfg b) s := by
  simp [sendData, setRS_eq, writeByte_eq, evData]

theorem clearBody_eq (s : State) : clearBody s = emitAll (evClear s.cfg) s := by
  simp [clearBody, sendCommand_eq, opWait_eq, evClear, emitAll_append]

theorem initNibble3Body_eq (s : State) : initNibble3Body s = emitAll (evInitNibble3 s.cfg) s := by
  simp [initNibble3Body, writeNibble_eq, opWait_eq, evInitNibble3, emitAll_append]

/-- INIT is `ev_init`, the cursor at (0, 0) and the phase READY (R90, R97). -/
theorem initBody_eq (s : State) : initBody s = emitAll (evInit s.cfg) ((s.setCursor 0 0).setPhase .ready) := by
  simp [initBody, repeatOp, setE_eq, setRS_eq, opWait_eq, writeNibble_eq, sendCommand_eq, clearBody_eq,
    initNibble3Body_eq, evInit, emitAll_append, emitAll_setCursor, emitAll_setPhase]

/-! ## The lines after a frame -/

@[simp] theorem replay_evNibble (l : Lines) (cfg : Config) (v : Nat) :
    l.replay (evNibble cfg v) = ⟨l.rs, some true, some (lowNibble v)⟩ := rfl

@[simp] theorem replay_evByte (l : Lines) (cfg : Config) (b : Byte) :
    l.replay (evByte cfg b) = ⟨l.rs, some true, some (lowNibble b.toNat)⟩ := by
  simp [evByte, replay_append]

@[simp] theorem replay_evCommand (l : Lines) (cfg : Config) (b : Byte) :
    l.replay (evCommand cfg b) = ⟨some false, some true, some (lowNibble b.toNat)⟩ := by
  simp [evCommand, Lines.apply]

@[simp] theorem replay_evData (l : Lines) (cfg : Config) (b : Byte) :
    l.replay (evData cfg b) = ⟨some true, some true, some (lowNibble b.toNat)⟩ := by
  simp [evData, Lines.apply]

@[simp] theorem replay_evClear (l : Lines) (cfg : Config) :
    l.replay (evClear cfg) = ⟨some false, some true, some 1⟩ := by
  simp [evClear, replay_append, Lines.apply]; rfl

@[simp] theorem replay_evInit (l : Lines) (cfg : Config) :
    l.replay (evInit cfg) = ⟨some false, some true, some 1⟩ := by
  simp [evInit, replay_append]

/-! ## LOCATE, NEWLINE, WRITE_CHAR -/

theorem locateBody_ok (column row : Int) (s : State) (h : InGeometry s.cfg column row) :
    locateBody column row s =
      .ok (emitAll (evLocate s.cfg column row) (s.setCursor (BitVec.ofInt 8 row) (BitVec.ofInt 8 column))) := by
  simp only [locateBody, evLocate, if_pos h, sendCommand_eq, State.setCursor_cfg]

theorem locateBody_error (column row : Int) (s : State) (h : ¬ InGeometry s.cfg column row) :
    locateBody column row s = .error .outOfRange := by simp only [locateBody, if_neg h]

/-- The row NEWLINE moves to is on the geometry, as a number: `(row + 1) mod rows` (R101 (d), R8). -/
theorem nextRow_toNat (cfg : Config) (row : Byte) (h : row.toNat < cfg.rows.toNat) :
    (nextRow cfg row).toNat = (row.toNat + 1) % cfg.rows.toNat := by
  have hr := cfg.rows.isLt
  have hs : (row + 1).toNat = row.toNat + 1 := by
    rw [BitVec.toNat_add]; simp; omega
  unfold nextRow
  split
  · next he =>
    have : row.toNat + 1 = cfg.rows.toNat := by rw [← hs, he]
    simp [this]
  · next he =>
    have : row.toNat + 1 ≠ cfg.rows.toNat := fun hc => he (BitVec.eq_of_toNat_eq (by rw [hs, hc]))
    rw [hs, Nat.mod_eq_of_lt (by omega)]

theorem nextRow_lt (cfg : Config) (row : Byte) (h : row.toNat < cfg.rows.toNat) :
    (nextRow cfg row).toNat < cfg.rows.toNat := by
  rw [nextRow_toNat cfg row h]; exact Nat.mod_lt _ (by omega)

@[simp] theorem ofInt_natCast_toNat (b : Byte) : BitVec.ofInt 8 (b.toNat : Int) = b := by
  apply BitVec.eq_of_toNat_eq
  simp

/-- NEWLINE is its cursor update and the events of its LOCATE (R101); no LOCATE inside it can fail where the target is
on the geometry, and where it is not, no event is emitted. -/
theorem newlineBody_eq (s : State) :
    newlineBody s = emitAll (evNewline s.cfg s.cursorRow) (s.setCursor (nextRow s.cfg s.cursorRow) 0) := by
  simp only [newlineBody, evNewline]
  by_cases h : InGeometry s.cfg 0 (nextRow s.cfg s.cursorRow).toNat
  · rw [locateBody_ok _ _ _ (by simpa using h)]
    simp
  · rw [locateBody_error _ _ _ (by simpa using h)]
    simp only [evLocate, if_neg h, emitAll_nil]

/-- WRITE_CHAR's three paths (R100). -/
theorem writeCharBody_eq (c : Byte) (s : State) :
    writeCharBody c s =
      if c = s.cfg.newlineChar then
        emitAll (evNewline s.cfg s.cursorRow) (s.setCursor (nextRow s.cfg s.cursorRow) 0)
      else if s.cursorColumn + 1 = s.cfg.columns then
        emitAll (evData s.cfg c ++ evNewline s.cfg s.cursorRow) (s.setCursor (nextRow s.cfg s.cursorRow) 0)
      else emitAll (evData s.cfg c) (s.setCursor s.cursorRow (s.cursorColumn + 1)) := by
  simp only [writeCharBody, newlineBody_eq, sendData_eq]
  split
  · rfl
  · simp [emitAll_setCursor, emitAll_append]

/-! ## Admission -/

@[simp] theorem refusal_respond (need : Need) (r : Response) (s : State) :
    (s.respond r).refusal need = s.refusal need := rfl

@[simp] theorem refusal_setRequests (need : Need) (rs : List Request) (s : State) :
    (s.setRequests rs).refusal need = s.refusal need := rfl

theorem refusal_operation_eq_none {s : State} :
    s.refusal .operation = none ↔ s.pending = [] ∧ s.phase = .ready ∧ s.cfg.wf = true := by
  unfold State.refusal
  by_cases hp : s.pending = [] <;> cases hf : s.phase <;> simp [hp]

theorem refusal_construction_eq_none {s : State} :
    s.refusal .construction = none ↔ s.pending = [] ∧ s.phase = .uninit ∧ s.cfg.wf = true := by
  unfold State.refusal
  by_cases hp : s.pending = [] <;> cases hf : s.phase <;> simp [hp]

theorem refusal_item_eq_none {s : State} {legal : Bool} :
    s.refusal (.item legal) = none ↔ s.pending = [] ∧ legal = true := by
  unfold State.refusal
  by_cases hp : s.pending = [] <;> simp [hp]

/-- A request runs its body exactly where it meets no refusal. -/
theorem perform_of_none {need : Need} {body : State → State} {s : State} (h : s.refusal need = none) :
    perform need body s = .next (body s) := by simp [perform, h]

theorem perform_of_some {need : Need} {body : State → State} {s : State} {r : Refusal}
    (h : s.refusal need = some r) : perform need body s = .refused r := by simp [perform, h]

/-- If a request answers a next state, it met no refusal and the state is its body's. -/
theorem perform_eq_next {need : Need} {body : State → State} {s t : State} (h : perform need body s = .next t) :
    s.refusal need = none ∧ t = body s := by
  unfold perform at h
  split at h
  · cases h
  · next hn => exact ⟨hn, by injection h with h; exact h.symm⟩

end Sys2Proof.Machine
end

