-- ==== Sys2Proof/Laws/Exec.lean ====
section
/-! SUPPORT. What an instruction can do, said once: it is refused as its need says, or it writes its registers and
performs its event list. The provers cite `exec_eq` and `step_cases` in place of unfolding meanings and the step. -/

namespace Sys2Proof.Machine

/-- A request's outcome depends on its body at that state only. -/
theorem perform_congr {need : Need} {body body' : State → State} {s : State} (h : body s = body' s) :
    perform need body s = perform need body' s := by rw [perform, perform, h]

/-- Every instruction, at the operation level: refused as its need says, or its registers and its events. -/
theorem exec_eq (i : Instr) (s : State) :
    exec i s = perform (needOf s.cfg i)
      (fun s => emitAll (eventsOf i s) ((s.setRegisters (registersAfter i s)).deliver (resultOf s.cfg i))) s := by
  cases i with
  | init =>
    simp only [exec, execInit, needOf]
    refine perform_congr ?_
    simp only [eventsOf, registersAfter, resultOf, initBody_eq, ← emitAll_respond]
    rfl
  | writeChar c =>
    simp only [exec, execWriteChar, needOf]
    refine perform_congr ?_
    simp only [eventsOf, registersAfter, resultOf, State.deliver_some, writeCharBody_eq, wraps, decide_eq_true_eq]
    by_cases hc : c = s.cfg.newlineChar
    · simp only [if_pos hc, if_pos (Or.inl hc), ← emitAll_respond, setCursor_eq]
    · by_cases hw : s.cursorColumn + 1 = s.cfg.columns
      · simp only [if_neg hc, if_pos hw, if_pos (Or.inr hw), ← emitAll_respond, setCursor_eq]
      · simp only [hc, hw, or_self, if_false, ← emitAll_respond, setCursor_eq]
  | locate column row =>
    simp only [exec, execLocate, needOf]
    refine perform_congr ?_
    simp only [eventsOf, registersAfter, resultOf, State.deliver_some]
    by_cases h : InGeometry s.cfg column row
    · simp only [locateBody_ok _ _ _ h, report, if_pos h, ← emitAll_respond, setCursor_eq]
    · simp only [locateBody_error _ _ _ h, report, if_neg h, evLocate, emitAll_nil, setRegisters_self]
  | clear =>
    simp only [exec, execClear, needOf]
    refine perform_congr ?_
    rw [clearBody_eq, ← emitAll_respond]
    rfl
  | newline =>
    simp only [exec, execNewline, needOf]
    exact perform_congr (by
      simp only [eventsOf, registersAfter, resultOf, State.deliver_some, newlineBody_eq, ← emitAll_respond,
        setCursor_eq])
  | clearDisplay =>
    simp only [exec, execClearDisplay, needOf]
    exact perform_congr (by
      simp only [eventsOf, registersAfter, resultOf, State.deliver_none, setRegisters_self, sendCommand_eq, opWait_eq,
        evClear, emitAll_append])
  | entryModeSet =>
    simp only [exec, execEntryModeSet, needOf]
    exact perform_congr (by
      simp only [eventsOf, registersAfter, resultOf, State.deliver_none, setRegisters_self, sendCommand_eq])
  | displayControl =>
    simp only [exec, execDisplayControl, needOf]
    exact perform_congr (by
      simp only [eventsOf, registersAfter, resultOf, State.deliver_none, setRegisters_self, sendCommand_eq])
  | functionSet =>
    simp only [exec, execFunctionSet, needOf]
    exact perform_congr (by
      simp only [eventsOf, registersAfter, resultOf, State.deliver_none, setRegisters_self, sendCommand_eq])
  | setDdramAddr a =>
    simp only [exec, execSetDdramAddr, needOf]
    exact perform_congr (by
      simp only [eventsOf, registersAfter, resultOf, State.deliver_none, setRegisters_self, sendCommand_eq])
  | initNibble3 =>
    simp only [exec, execInitNibble3, needOf]
    exact perform_congr (by
      simp only [eventsOf, registersAfter, resultOf, State.deliver_none, setRegisters_self, writeNibble_eq, opWait_eq,
        evInitNibble3, emitAll_append])
  | initNibble2 =>
    simp only [exec, execInitNibble2, needOf]
    exact perform_congr (by
      simp only [eventsOf, registersAfter, resultOf, State.deliver_none, setRegisters_self, writeNibble_eq])
  | writeData d =>
    simp only [exec, execWriteData, needOf]
    exact perform_congr (by
      simp only [eventsOf, registersAfter, resultOf, State.deliver_none, setRegisters_self, sendData_eq])

theorem exec_of_none {i : Instr} {s : State} (h : s.refusal (needOf s.cfg i) = none) :
    exec i s = .next (emitAll (eventsOf i s) ((s.setRegisters (registersAfter i s)).deliver (resultOf s.cfg i))) := by
  rw [exec_eq]; exact perform_of_none h

theorem exec_of_some {i : Instr} {s : State} {r : Refusal} (h : s.refusal (needOf s.cfg i) = some r) :
    exec i s = .refused r := by rw [exec_eq]; exact perform_of_some h

theorem exec_eq_next {i : Instr} {s t : State} (h : exec i s = .next t) :
    s.refusal (needOf s.cfg i) = none ∧
      t = emitAll (eventsOf i s) ((s.setRegisters (registersAfter i s)).deliver (resultOf s.cfg i)) := by
  rw [exec_eq] at h
  exact perform_eq_next h

theorem accept_of_none {i : Instr} {s : State} (h : s.refusal (needOf s.cfg i) = none) :
    accept i s = .next (accepted i s) := by
  simp [accept, h]

theorem accept_of_some {i : Instr} {s : State} {r : Refusal} (h : s.refusal (needOf s.cfg i) = some r) :
    accept i s = .refused r := by simp [accept, h]

theorem accept_eq_next {i : Instr} {s t : State} (h : accept i s = .next t) :
    s.refusal (needOf s.cfg i) = none ∧ t = accepted i s := by
  unfold accept at h
  split at h
  · cases h
  · next hn => exact ⟨hn, by injection h with h; exact h.symm⟩

@[simp] theorem accepted_cfg (i : Instr) (s : State) : (accepted i s).cfg = s.cfg := by simp [accepted]
@[simp] theorem accepted_lines (i : Instr) (s : State) : (accepted i s).lines = s.lines := by
  rw [accepted, complete_lines]; rfl
@[simp] theorem accepted_trace (i : Instr) (s : State) : (accepted i s).trace = s.trace := by simp [accepted]
@[simp] theorem accepted_pending (i : Instr) (s : State) : (accepted i s).pending = eventsOf i s := by
  simp [accepted]
@[simp] theorem accepted_level (i : Instr) (s : State) : (accepted i s).level = s.level := by simp [accepted]
@[simp] theorem accepted_requests (i : Instr) (s : State) : (accepted i s).requests = s.requests := by
  simp [accepted]

theorem accepted_registers (i : Instr) (s : State) : (accepted i s).registers = registersAfter i s := by
  simp [accepted, State.registers]

/-- While events are pending the result is owed and not yet given. -/
theorem accepted_response {i : Instr} {s : State} (h : eventsOf i s ≠ []) :
    (accepted i s).response = s.response ∧ (accepted i s).returning = resultOf s.cfg i := by
  simp [accepted, complete_response, complete_returning, h]

/-- No instruction is admitted while an operation is in flight (R79). -/
theorem pending_of_admitted {need : Need} {s : State} (h : s.refusal need = none) : s.pending = [] := by
  unfold State.refusal at h
  by_contra hp
  simp [hp] at h

/-! ## What an instruction does not read

No instruction reads the lines (R18), the trace, the level or the requests. -/

theorem registersAfter_setRequests (i : Instr) (rs : List Request) (s : State) :
    registersAfter i (s.setRequests rs) = registersAfter i s := by cases i <;> rfl

theorem eventsOf_setRequests (i : Instr) (rs : List Request) (s : State) :
    eventsOf i (s.setRequests rs) = eventsOf i s := by cases i <;> rfl

theorem registersAfter_setLevel (i : Instr) (l : Level) (s : State) :
    registersAfter i (s.setLevel l) = registersAfter i s := by cases i <;> rfl

theorem eventsOf_setLevel (i : Instr) (l : Level) (s : State) :
    eventsOf i (s.setLevel l) = eventsOf i s := by cases i <;> rfl

theorem registersAfter_setLines (i : Instr) (l : Lines) (s : State) :
    registersAfter i (s.setLines l) = registersAfter i s := by cases i <;> rfl

theorem accepted_setLines (i : Instr) (l : Lines) (s : State) :
    accepted i (s.setLines l) = (accepted i s).setLines l := by
  simp only [accepted, ← complete_setLines]
  cases i <;> rfl

theorem eventsOf_setLines (i : Instr) (l : Lines) (s : State) :
    eventsOf i (s.setLines l) = eventsOf i s := by cases i <;> rfl

@[simp] theorem refusal_setLines (need : Need) (l : Lines) (s : State) :
    (s.setLines l).refusal need = s.refusal need := rfl

/-- A meaning is the same at either level: the level decides only how the step runs it (R6). -/
theorem exec_setLevel {i : Instr} {s t : State} (l : Level) (h : exec i s = .next t) :
    exec i (s.setLevel l) = .next (t.setLevel l) := by
  obtain ⟨hn, rfl⟩ := exec_eq_next h
  rw [exec_of_none (i := i) (s := s.setLevel l) hn, registersAfter_setLevel, eventsOf_setLevel, ← emitAll_setLevel]
  rfl

/-- A meaning neither reads nor writes the result owed at the event level. -/
theorem exec_setReturning {i : Instr} {s t : State} (r : Option Response) (h : exec i s = .next t) :
    exec i (s.setReturning r) = .next (t.setReturning r) := by
  obtain ⟨hn, rfl⟩ := exec_eq_next h
  rw [exec_of_none (i := i) (s := s.setReturning r) hn, ← emitAll_setReturning]
  cases i <;> rfl

/-- A meaning does not read the requests still to come. -/
theorem exec_setRequests {i : Instr} {s t : State} (rs : List Request) (h : exec i s = .next t) :
    exec i (s.setRequests rs) = .next (t.setRequests rs) := by
  obtain ⟨hn, rfl⟩ := exec_eq_next h
  rw [exec_of_none (i := i) (s := s.setRequests rs) hn, registersAfter_setRequests, eventsOf_setRequests, ← emitAll_setRequests]
  rfl

/-! ## The step -/

/-- Everything a step can do when it answers a next state: perform the next pending event, stay idle, or run the next
request at the machine's level. -/
theorem step_cases {s t : State} (h : step s = .next t) :
    (∃ ev rest, s.pending = ev :: rest ∧ t = complete ((s.setPending rest).emit ev)) ∨
    (s.pending = [] ∧ s.requests = [] ∧ t = s) ∨
    (∃ r rest i, s.pending = [] ∧ s.requests = r :: rest ∧ fetch r = .ok i ∧
      runAt i (s.setRequests rest) = .next t) := by
  unfold step at h
  split at h
  · next ev rest hp => exact .inl ⟨ev, rest, hp, by injection h with h; exact h.symm⟩
  · next hp =>
    split at h
    · next hr => exact .inr (.inl ⟨hp, hr, by injection h with h; exact h.symm⟩)
    · next r rest hr =>
      split at h
      · cases h
      · next i hf => exact .inr (.inr ⟨r, rest, i, hp, hr, hf, h⟩)

/-- At either level an instruction that is not refused writes its registers and performs its events, now or pending. -/
theorem runAt_cases {i : Instr} {s t : State} (h : runAt i s = .next t) :
    s.refusal (needOf s.cfg i) = none ∧
    ((s.level = .operation ∧
        t = emitAll (eventsOf i s) ((s.setRegisters (registersAfter i s)).deliver (resultOf s.cfg i))) ∨
      (s.level = .event ∧ t = accepted i s)) := by
  unfold runAt at h
  split at h
  · next hl => exact ⟨(exec_eq_next h).1, .inl ⟨hl, (exec_eq_next h).2⟩⟩
  · next hl => exact ⟨(accept_eq_next h).1, .inr ⟨hl, (accept_eq_next h).2⟩⟩

end Sys2Proof.Machine
end

