-- ==== Sys2Proof/Laws/Observer.lean ====
section
/-! SUPPORT. What the observer of 20_memory.md rule R43 outputs for each frame, and how its outputs and the times of a
trace add up along a longer trace. -/

namespace Sys2Proof.Machine

/-! ## Nibbles -/

theorem nibblesFrom_append (l : Lines) (es es' : List Event) :
    nibblesFrom l (es ++ es') = nibblesFrom l es ++ nibblesFrom (l.replay es) es' := by
  induction es generalizing l with
  | nil => rfl
  | cons ev es ih => simp [nibblesFrom, ih]

/-- A nibble frame on raised enable latches its nibble once, with register-select as it stands (R74). -/
theorem nibblesFrom_evNibble (rs : Bit) (db : Option Nibble) (cfg : Config) (v : Nat) :
    nibblesFrom ⟨some rs, some true, db⟩ (evNibble cfg v) = [(rs, lowNibble v)] := rfl

theorem nibblesFrom_evByte (rs : Bit) (db : Option Nibble) (cfg : Config) (b : Byte) :
    nibblesFrom ⟨some rs, some true, db⟩ (evByte cfg b) =
      [(rs, lowNibble (highPart b)), (rs, lowNibble b.toNat)] := by
  simp [evByte, nibblesFrom_append, nibblesFrom_evNibble]

theorem nibblesFrom_evCommand {l : Lines} (h : l.e = some true) (cfg : Config) (b : Byte) :
    nibblesFrom l (evCommand cfg b) = [(false, lowNibble (highPart b)), (false, lowNibble b.toNat)] := by
  obtain ⟨rs, e, db⟩ := l
  subst h
  simp [evCommand, nibblesFrom, latch, Lines.apply, nibblesFrom_evByte]

theorem nibblesFrom_evData {l : Lines} (h : l.e = some true) (cfg : Config) (b : Byte) :
    nibblesFrom l (evData cfg b) = [(true, lowNibble (highPart b)), (true, lowNibble b.toNat)] := by
  obtain ⟨rs, e, db⟩ := l
  subst h
  simp [evData, nibblesFrom, latch, Lines.apply, nibblesFrom_evByte]

theorem nibblesFrom_evClear {l : Lines} (h : l.e = some true) (cfg : Config) :
    nibblesFrom l (evClear cfg) = [(false, 0x0), (false, 0x1)] := by
  rw [evClear, nibblesFrom_append, nibblesFrom_evCommand h]
  rfl

/-! ## Bytes -/

@[simp] theorem joinNibbles_split (b : Byte) : joinNibbles (lowNibble (highPart b)) (lowNibble b.toNat) = b := by
  revert b; decide

theorem pairNibbles_append {xs : List (Bit × Nibble)} (h : 2 ∣ xs.length) (ys : List (Bit × Nibble)) :
    pairNibbles (xs ++ ys) = pairNibbles xs ++ pairNibbles ys := by
  induction xs using pairNibbles.induct with
  | case1 rs hi rs' lo rest ih =>
    have h' : 2 ∣ rest.length := by simp only [List.length_cons] at h; omega
    simp [pairNibbles, ih h']
  | case2 x => simp at h
  | case3 => rfl

/-- A trace that ends between whole bytes: enable high, INIT's four lone nibbles past, the rest in pairs (R37). -/
structure Whole (trace : List Event) : Prop where
  enable : (Lines.unwritten.replay trace).e = some true
  four : 4 ≤ (nibbles trace).length
  even : 2 ∣ (nibbles trace).length

/-- More events after whole bytes output their own bytes after those before. -/
theorem bytes_append {trace : List Event} (h : Whole trace) (es : List Event) :
    bytes (trace ++ es) = bytes trace ++ pairNibbles (nibblesFrom (Lines.unwritten.replay trace) es) := by
  have split : nibbles (trace ++ es) = nibbles trace ++ nibblesFrom (Lines.unwritten.replay trace) es :=
    nibblesFrom_append _ _ _
  have h4 := h.four
  have h2 := h.even
  rw [bytes, split, List.drop_append_of_le_length h4]
  exact pairNibbles_append (by rw [List.length_drop]; omega) _

theorem bytes_append_command {trace : List Event} (h : Whole trace) (cfg : Config) (b : Byte) :
    bytes (trace ++ evCommand cfg b) = bytes trace ++ [(false, b)] := by
  rw [bytes_append h, nibblesFrom_evCommand h.enable]
  simp [pairNibbles]

theorem bytes_append_data {trace : List Event} (h : Whole trace) (cfg : Config) (b : Byte) :
    bytes (trace ++ evData cfg b) = bytes trace ++ [(true, b)] := by
  rw [bytes_append h, nibblesFrom_evData h.enable]
  simp [pairNibbles]

theorem bytes_append_clear {trace : List Event} (h : Whole trace) (cfg : Config) :
    bytes (trace ++ evClear cfg) = bytes trace ++ [(false, 0x01)] := by
  rw [bytes_append h, nibblesFrom_evClear h.enable]
  rfl

theorem Whole.append_command {trace : List Event} (h : Whole trace) (cfg : Config) (b : Byte) :
    Whole (trace ++ evCommand cfg b) where
  enable := by rw [replay_append, replay_evCommand]
  four := by
    have := h.four
    simp only [nibbles, nibblesFrom_append, List.length_append] at *
    omega
  even := by
    have := h.even
    simp only [nibbles, nibblesFrom_append, nibblesFrom_evCommand h.enable, List.length_append,
      List.length_cons, List.length_nil] at *
    omega

theorem Whole.append_data {trace : List Event} (h : Whole trace) (cfg : Config) (b : Byte) :
    Whole (trace ++ evData cfg b) where
  enable := by rw [replay_append, replay_evData]
  four := by
    have := h.four
    simp only [nibbles, nibblesFrom_append, List.length_append] at *
    omega
  even := by
    have := h.even
    simp only [nibbles, nibblesFrom_append, nibblesFrom_evData h.enable, List.length_append,
      List.length_cons, List.length_nil] at *
    omega

/-! ## The display's pointer and its stores -/

theorem pointerFrom_append (ptr : Option Addr) (bs bs' : List (Bit × Byte)) :
    pointerFrom ptr (bs ++ bs') = pointerFrom (pointerFrom ptr bs) bs' := by
  simp [pointerFrom, List.foldl_append]

theorem writesFrom_append (ptr : Option Addr) (bs bs' : List (Bit × Byte)) :
    writesFrom ptr (bs ++ bs') = writesFrom ptr bs ++ writesFrom (pointerFrom ptr bs) bs' := by
  induction bs generalizing ptr with
  | nil => rfl
  | cons x bs ih =>
    obtain ⟨rs, b⟩ := x
    cases rs <;> simp [writesFrom, ih, pointerFrom]

/-! ## Time -/

theorem waits_append (es es' : List Event) : waits (es ++ es') = waits es ++ waits es' := by
  induction es with
  | nil => rfl
  | cons ev es ih => cases ev <;> simp [waits, ih]

theorem minDuration_append (es es' : List Event) :
    minDuration (es ++ es') = minDuration es + minDuration es' := by
  simp [minDuration, waits_append]

@[simp] theorem minDuration_evNibble (cfg : Config) (v : Nat) : minDuration (evNibble cfg v) = 2 * cfg.tPulse := by
  simp [minDuration, evNibble, waits]; omega

@[simp] theorem minDuration_evByte (cfg : Config) (b : Byte) : minDuration (evByte cfg b) = 4 * cfg.tPulse := by
  simp [evByte, minDuration_append]; omega

@[simp] theorem minDuration_evCommand (cfg : Config) (b : Byte) :
    minDuration (evCommand cfg b) = 4 * cfg.tPulse := minDuration_evByte cfg b

@[simp] theorem minDuration_evData (cfg : Config) (b : Byte) :
    minDuration (evData cfg b) = 4 * cfg.tPulse := minDuration_evByte cfg b

@[simp] theorem minDuration_evClear (cfg : Config) :
    minDuration (evClear cfg) = 4 * cfg.tPulse + cfg.tLong := by
  rw [evClear, minDuration_append, minDuration_evCommand]
  simp [minDuration, waits]

@[simp] theorem minDuration_evInitNibble3 (cfg : Config) :
    minDuration (evInitNibble3 cfg) = 2 * cfg.tPulse + cfg.tLong := by
  rw [evInitNibble3, minDuration_append, minDuration_evNibble]
  simp [minDuration, waits]

/-- The falls of a longer list: those of its second part come after the waits of its first. -/
theorem fallTimes_append (t : Nat) (es es' : List Event) :
    fallTimes t (es ++ es') = fallTimes t es ++ fallTimes (t + minDuration es) es' := by
  induction es generalizing t with
  | nil => simp [fallTimes, minDuration, waits]
  | cons ev es ih =>
    rcases ev with b | b | n | d
    · simp [fallTimes, minDuration, waits, ih]
    · cases b <;> simp [fallTimes, minDuration, waits, ih]
    · simp [fallTimes, minDuration, waits, ih]
    · simp [fallTimes, minDuration, waits, ih, Nat.add_assoc]

@[simp] theorem fallTimes_evNibble (t : Nat) (cfg : Config) (v : Nat) :
    fallTimes t (evNibble cfg v) = [t + cfg.tPulse] := rfl

@[simp] theorem fallTimes_evByte (t : Nat) (cfg : Config) (b : Byte) :
    fallTimes t (evByte cfg b) = [t + cfg.tPulse, t + 2 * cfg.tPulse + cfg.tPulse] := by
  simp [evByte, fallTimes_append]

@[simp] theorem fallTimes_evCommand (t : Nat) (cfg : Config) (b : Byte) :
    fallTimes t (evCommand cfg b) = [t + cfg.tPulse, t + 2 * cfg.tPulse + cfg.tPulse] := fallTimes_evByte t cfg b

theorem elapsedFrom_append (k : Nat) (ds ds' : List Nat) :
    elapsedFrom k (ds ++ ds') = elapsedFrom k ds + elapsedFrom (k + ds.length) ds' := by
  induction ds generalizing k with
  | nil => simp [elapsedFrom]
  | cons d ds ih => simp [elapsedFrom, ih, Nat.add_assoc, Nat.add_comm 1]

@[simp] theorem length_evNibble (cfg : Config) (v : Nat) : (evNibble cfg v).length = 5 := rfl

@[simp] theorem length_evByte (cfg : Config) (b : Byte) : (evByte cfg b).length = 10 := rfl

@[simp] theorem length_evCommand (cfg : Config) (b : Byte) : (evCommand cfg b).length = 11 := rfl

@[simp] theorem length_evData (cfg : Config) (b : Byte) : (evData cfg b).length = 11 := rfl

@[simp] theorem length_evClear (cfg : Config) : (evClear cfg).length = 12 := rfl

@[simp] theorem length_evInit (cfg : Config) : (evInit cfg).length = 71 := rfl

end Sys2Proof.Machine
end

