-- ==== Sys2Proof/Laws/Protocol.lean ====
section
/-! SUPPORT. The bus machines over longer lists: every frame is accepted from idle to idle, and an accepted list of whole
bytes leaves enable high and an even number of latched nibbles. -/

namespace Sys2Proof.Machine

/-! ## The nibble machine -/

/-- Running the nibble machine over one list and then another. -/
theorem nibbleRun_append_of_idle {cfg : Config} {es : List Event} (h : nibbleRun cfg es = some .nIdle)
    (es' : List Event) : nibbleRun cfg (es ++ es') = nibbleRun cfg es' := by
  unfold nibbleRun at *
  rw [List.foldlM_append, h]
  rfl

theorem nibbleRun_evNibble (cfg : Config) (v : Nat) : nibbleRun cfg (evNibble cfg v) = some .nIdle := by
  simp [nibbleRun, evNibble, nibbleNext]

theorem nibbleRun_evByte (cfg : Config) (b : Byte) : nibbleRun cfg (evByte cfg b) = some .nIdle := by
  rw [evByte, nibbleRun_append_of_idle (nibbleRun_evNibble _ _), nibbleRun_evNibble]

theorem nibbleRun_evCommand (cfg : Config) (b : Byte) : nibbleRun cfg (evCommand cfg b) = some .nIdle :=
  nibbleRun_evByte cfg b

theorem nibbleRun_evData (cfg : Config) (b : Byte) : nibbleRun cfg (evData cfg b) = some .nIdle :=
  nibbleRun_evByte cfg b

theorem nibbleRun_evClear (cfg : Config) : nibbleRun cfg (evClear cfg) = some .nIdle := by
  rw [evClear, nibbleRun_append_of_idle (nibbleRun_evCommand _ _)]; rfl

theorem nibbleRun_evInitNibble3 (cfg : Config) : nibbleRun cfg (evInitNibble3 cfg) = some .nIdle := by
  rw [evInitNibble3, nibbleRun_append_of_idle (nibbleRun_evNibble _ _)]; rfl

theorem nibbleRun_evInit (cfg : Config) : nibbleRun cfg (evInit cfg) = some .nIdle := by
  have start : nibbleRun cfg [.setE true, .setRS false, .wait cfg.tPowerOn] = some .nIdle := rfl
  have three : nibbleRun cfg (evInitNibble3 cfg ++ evInitNibble3 cfg ++ evInitNibble3 cfg) = some .nIdle := by
    rw [List.append_assoc, nibbleRun_append_of_idle (nibbleRun_evInitNibble3 _),
      nibbleRun_append_of_idle (nibbleRun_evInitNibble3 _), nibbleRun_evInitNibble3]
  simp only [evInit, List.append_assoc]
  rw [nibbleRun_append_of_idle start, ← List.append_assoc (evInitNibble3 cfg),
    ← List.append_assoc (evInitNibble3 cfg ++ evInitNibble3 cfg), nibbleRun_append_of_idle three,
    nibbleRun_append_of_idle (nibbleRun_evNibble _ _), nibbleRun_append_of_idle (nibbleRun_evCommand _ _),
    nibbleRun_append_of_idle (nibbleRun_evCommand _ _), nibbleRun_append_of_idle (nibbleRun_evCommand _ _),
    nibbleRun_evClear]

/-! ## The event list of an instruction -/

/-- LOCATE emits one command or nothing (R112). -/
theorem evLocate_cases (cfg : Config) (column row : Int) :
    evLocate cfg column row = [] ∨
      ∃ b, evLocate cfg column row = evCommand cfg b := by
  unfold evLocate
  split
  · exact .inr ⟨_, rfl⟩
  · exact .inl rfl

theorem nibbleRun_evLocate (cfg : Config) (column row : Int) :
    nibbleRun cfg (evLocate cfg column row) = some .nIdle := by
  obtain h | ⟨b, h⟩ := evLocate_cases cfg column row
  · rw [h]; rfl
  · rw [h, nibbleRun_evCommand]

/-- Every instruction's events are whole nibble frames with their waits (R144). -/
theorem nibbleRun_eventsOf (i : Instr) (s : State) : nibbleRun s.cfg (eventsOf i s) = some .nIdle := by
  cases i with
  | init => exact nibbleRun_evInit _
  | writeChar c =>
    simp only [eventsOf]
    split
    · exact nibbleRun_evLocate _ _ _
    · split
      · rw [nibbleRun_append_of_idle (nibbleRun_evData _ _)]; exact nibbleRun_evLocate _ _ _
      · exact nibbleRun_evData _ _
  | locate column row => exact nibbleRun_evLocate _ _ _
  | clear => exact nibbleRun_evClear _
  | newline => exact nibbleRun_evLocate _ _ _
  | clearDisplay => exact nibbleRun_evClear _
  | entryModeSet => exact nibbleRun_evCommand _ _
  | displayControl => exact nibbleRun_evCommand _ _
  | functionSet => exact nibbleRun_evCommand _ _
  | setDdramAddr a => exact nibbleRun_evCommand _ _
  | initNibble3 => exact nibbleRun_evInitNibble3 _
  | initNibble2 => exact nibbleRun_evNibble _ _
  | writeData d => exact nibbleRun_evData _ _

/-! ## The byte machine -/

theorem byteRun_append_of_idle {cfg : Config} {es : List Event} (h : byteRun cfg es = some (.nIdle, .bIdle))
    (es' : List Event) : byteRun cfg (es ++ es') = byteRun cfg es' := by
  unfold byteRun at *
  rw [List.foldlM_append, h]
  rfl

theorem byteRun_evCommand (cfg : Config) (b : Byte) : byteRun cfg (evCommand cfg b) = some (.nIdle, .bIdle) := by
  simp [byteRun, evCommand, evByte, evNibble, byteNext, nibbleNext]

theorem byteRun_evData (cfg : Config) (b : Byte) : byteRun cfg (evData cfg b) = some (.nIdle, .bIdle) := by
  simp [byteRun, evData, evByte, evNibble, byteNext, nibbleNext]

theorem byteRun_evClear (cfg : Config) : byteRun cfg (evClear cfg) = some (.nIdle, .bIdle) := by
  rw [evClear, byteRun_append_of_idle (byteRun_evCommand _ _)]; rfl

/-- The lines a state of the byte machine may stand on. -/
def ByteState.fits : NibbleState → ByteState → Lines → Prop
  | .nIdle, .bIdle, l => l.e = some true
  | _, .bIdle, _ => False
  | .nIdle, _, l => l.e = some true ∧ l.rs.isSome
  | .nSetup _, _, l => l.e = some true ∧ l.rs.isSome ∧ l.db.isSome
  | .nLow _, _, l => l.e = some false ∧ l.rs.isSome ∧ l.db.isSome

/-- How many nibbles, modulo 2, are still to be latched before the machine is idle again. -/
def ByteState.owed : NibbleState → ByteState → Nat
  | _, .bIdle => 0
  | .nLow _, .bHigh => 1
  | _, .bHigh => 0
  | .nLow _, .bLow => 0
  | _, .bLow => 1

/-- One event the byte machine accepts keeps the lines fitting, and latches what the owed count drops by. -/
theorem byteNext_fits {cfg : Config} {n n' : NibbleState} {b b' : ByteState} {l : Lines} {ev : Event}
    (hl : ByteState.fits n b l) (h : byteNext cfg (n, b) ev = some (n', b')) :
    ByteState.fits n' b' (l.apply ev) ∧
      ((latch l ev).length + ByteState.owed n' b') % 2 = ByteState.owed n b := by
  obtain ⟨rs, e, db⟩ := l
  have bit : ∀ x : Bit, x = true ∨ x = false := fun x => by cases x <;> simp
  rcases n with _ | held | held <;> (try rcases bit held with rfl | rfl) <;> cases b <;>
    rcases ev with x | x | x | x <;> (try rcases bit x with rfl | rfl) <;>
    simp only [byteNext, nibbleNext] at h <;> (try split at h) <;> (try simp only [Option.map] at h) <;>
    cases h <;> simp only [ByteState.fits] at hl <;>
    simp_all [ByteState.fits, ByteState.owed, Lines.apply, latch]
  all_goals
    obtain ⟨-, hr, hd⟩ := hl
    obtain ⟨r, rfl⟩ := Option.isSome_iff_exists.mp hr
    obtain ⟨d, rfl⟩ := Option.isSome_iff_exists.mp hd
    simp

/-- A list the byte machine accepts to idle leaves enable high and latches the nibbles owed. -/
theorem byteRun_lines {cfg : Config} (es : List Event) (n : NibbleState) (b : ByteState) (l : Lines)
    (hl : ByteState.fits n b l) (h : es.foldlM (byteNext cfg) (n, b) = some (.nIdle, .bIdle)) :
    (l.replay es).e = some true ∧ (nibblesFrom l es).length % 2 = ByteState.owed n b := by
  induction es generalizing n b l with
  | nil =>
    simp at h
    obtain ⟨rfl, rfl⟩ := h
    exact ⟨hl, rfl⟩
  | cons ev es ih =>
    rw [List.foldlM_cons] at h
    obtain ⟨⟨n', b'⟩, h1, h2⟩ := Option.bind_eq_some_iff.mp h
    have key := byteNext_fits hl h1
    obtain ⟨hr, hn⟩ := ih n' b' (l.apply ev) key.1 h2
    refine ⟨hr, ?_⟩
    have h2 := key.2
    simp only [nibblesFrom, List.length_append]
    omega

/-- INIT's events end between whole bytes. -/
theorem whole_evInit (cfg : Config) : Whole (evInit cfg) where
  enable := by rw [replay_evInit]
  four := by show 4 ≤ 12; omega
  even := by show 2 ∣ 12; omega

/-- INIT's events and then whole bytes end between whole bytes (R37). -/
theorem whole_of_byteRun {cfg : Config} {es : List Event} (h : byteRun cfg es = some (.nIdle, .bIdle)) :
    Whole (evInit cfg ++ es) ∧ 12 ≤ (nibbles (evInit cfg ++ es)).length := by
  have hn : nibbles (evInit cfg ++ es) = nibbles (evInit cfg) ++ nibblesFrom (Lines.unwritten.replay (evInit cfg)) es :=
    nibblesFrom_append _ _ _
  have key := byteRun_lines es .nIdle .bIdle (Lines.unwritten.replay (evInit cfg))
    (by rw [replay_evInit]; rfl) h
  have h12 : (nibbles (evInit cfg)).length = 12 := rfl
  have h2 : (nibblesFrom (Lines.unwritten.replay (evInit cfg)) es).length % 2 = 0 := key.2
  refine ⟨⟨?_, ?_, ?_⟩, ?_⟩
  · rw [replay_append]; exact key.1
  · rw [hn, List.length_append, h12]; omega
  · rw [hn, List.length_append, h12]; omega
  · rw [hn, List.length_append, h12]; omega

/-! ## What a list of events sends -/

/-- `es` is whole bytes on the bus, and after any whole bytes the display latches exactly `bs` from it. -/
structure Sends (cfg : Config) (es : List Event) (bs : List (Bit × Byte)) : Prop where
  run : byteRun cfg es = some (.nIdle, .bIdle)
  whole : ∀ {trace}, Whole trace → Whole (trace ++ es)
  bytes_eq : ∀ {trace}, Whole trace → bytes (trace ++ es) = bytes trace ++ bs

theorem Sends.nil (cfg : Config) : Sends cfg [] [] where
  run := rfl
  whole := fun h => by rwa [List.append_nil]
  bytes_eq := fun _ => by rw [List.append_nil, List.append_nil]

theorem Sends.append {cfg : Config} {es es' : List Event} {bs bs' : List (Bit × Byte)} (h : Sends cfg es bs)
    (h' : Sends cfg es' bs') : Sends cfg (es ++ es') (bs ++ bs') where
  run := by rw [byteRun_append_of_idle h.run, h'.run]
  whole := fun hw => by rw [← List.append_assoc]; exact h'.whole (h.whole hw)
  bytes_eq := fun hw => by
    rw [← List.append_assoc, h'.bytes_eq (h.whole hw), h.bytes_eq hw, List.append_assoc]

theorem sends_evCommand (cfg : Config) (b : Byte) : Sends cfg (evCommand cfg b) [(false, b)] where
  run := byteRun_evCommand cfg b
  whole := fun h => h.append_command cfg b
  bytes_eq := fun h => bytes_append_command h cfg b

theorem sends_evData (cfg : Config) (b : Byte) : Sends cfg (evData cfg b) [(true, b)] where
  run := byteRun_evData cfg b
  whole := fun h => h.append_data cfg b
  bytes_eq := fun h => bytes_append_data h cfg b

theorem sends_evClear (cfg : Config) : Sends cfg (evClear cfg) [(false, 0x01)] where
  run := byteRun_evClear cfg
  whole := fun {trace} h => by
    have hc := h.append_command cfg 0x01
    have hn : nibbles (trace ++ evClear cfg) = nibbles (trace ++ evCommand cfg 0x01) := by
      rw [evClear, ← List.append_assoc, nibbles, nibblesFrom_append]
      exact List.append_nil _
    exact ⟨by rw [replay_append, replay_evClear], by rw [hn]; exact hc.four, by rw [hn]; exact hc.even⟩
  bytes_eq := fun h => bytes_append_clear h cfg

/-- What the display's pointer and stores do with the bytes sent (R43). -/
theorem Sends.pointer {cfg : Config} {es : List Event} {bs : List (Bit × Byte)} (h : Sends cfg es bs)
    {trace : List Event} (hw : Whole trace) : ddramPointer (trace ++ es) = pointerFrom (ddramPointer trace) bs := by
  rw [ddramPointer, h.bytes_eq hw, pointerFrom_append]; rfl

theorem Sends.writes {cfg : Config} {es : List Event} {bs : List (Bit × Byte)} (h : Sends cfg es bs)
    {trace : List Event} (hw : Whole trace) :
    ddramWrites (trace ++ es) = ddramWrites trace ++ writesFrom (ddramPointer trace) bs := by
  rw [ddramWrites, h.bytes_eq hw, writesFrom_append]; rfl

end Sys2Proof.Machine
end

