-- ==== Sys2Proof/Laws/Geometry.lean ====
section
/-! SUPPORT. The geometry of a well-formed configuration (10_state.md rule R25): addresses of cells fit seven bits, the
next row and column stay on the geometry, and what NEWLINE therefore emits. -/

namespace Sys2Proof.Machine

/-! ## Well-formed configurations -/

/-- A well-formed configuration, its table read entry by entry. -/
theorem config_wf_cases {cfg : Config} (h : cfg.wf = true) :
    0 < cfg.rows.toNat ∧ 0 < cfg.columns.toNat ∧ cfg.rowBase.length = cfg.rows.toNat ∧
      ∀ base ∈ cfg.rowBase, base.toNat + cfg.columns.toNat - 1 ≤ 0x7F := by
  simpa [Config.wf, and_assoc] using h

/-- The base of a row on the geometry is an entry of the table. -/
theorem rowBase_mem {cfg : Config} (h : cfg.wf = true) {row : Nat} (hr : row < cfg.rows.toNat) :
    cfg.rowBase.getD row 0 ∈ cfg.rowBase := by
  obtain ⟨-, -, hl, -⟩ := config_wf_cases h
  rw [List.getD_eq_getElem _ _ (by omega)]
  exact List.getElem_mem _

/-- The address of a cell fits the low seven bits of the command (R31, R33). -/
theorem ddramAddr_le {cfg : Config} (h : cfg.wf = true) {row column : Nat} (hr : row < cfg.rows.toNat)
    (hc : column < cfg.columns.toNat) : ddramAddr cfg row column ≤ 0x7F := by
  obtain ⟨-, -, -, hb⟩ := config_wf_cases h
  have := hb _ (rowBase_mem h hr)
  unfold ddramAddr
  omega

/-- The low nibble of the command byte is the address's. -/
theorem lowNibble_addressCommand {a : Nat} (h : a ≤ 0x7F) : lowNibble (addressCommand a).toNat = lowNibble a := by
  have all : ∀ a : Fin 128, lowNibble (addressCommand a.val).toNat = lowNibble a.val := by decide
  exact all ⟨a, by omega⟩

/-- The command byte names no other command, and carries the address in its low seven bits. -/
theorem addressCommand_fields {a : Nat} (h : a ≤ 0x7F) :
    addressCommand a ≠ 0x01 ∧ (addressCommand a).getLsbD 7 = true ∧
      (addressCommand a).setWidth 7 = BitVec.ofNat 7 a := by
  have all : ∀ a : Fin 128, addressCommand a.val ≠ 0x01 ∧ (addressCommand a.val).getLsbD 7 = true ∧
      (addressCommand a.val).setWidth 7 = BitVec.ofNat 7 a.val := by decide
  exact all ⟨a, by omega⟩

/-- A cell's address is in the image of the mapper (R59). -/
theorem mapsTo_ddramAddr {cfg : Config} (h : cfg.wf = true) {row column : Nat} (hr : row < cfg.rows.toNat)
    (hc : column < cfg.columns.toNat) : cfg.mapsTo (BitVec.ofNat 7 (ddramAddr cfg row column)) = true := by
  have hle := ddramAddr_le h hr hc
  refine List.any_eq_true.mpr ⟨_, rowBase_mem h hr, decide_eq_true ?_⟩
  have hn : (BitVec.ofNat 7 (ddramAddr cfg row column)).toNat = ddramAddr cfg row column := by
    rw [BitVec.toNat_ofNat]; omega
  rw [hn]
  unfold ddramAddr
  omega

/-! ## The next column and row -/

theorem succ_toNat {x bound : Byte} (h : x.toNat < bound.toNat) : (x + 1).toNat = x.toNat + 1 := by
  have := bound.isLt
  rw [BitVec.toNat_add]
  simp
  omega

/-- The wrap test of WRITE_CHAR, as a test on numbers. -/
theorem wraps_iff {s : State} (h : s.cursorColumn.toNat < s.cfg.columns.toNat) :
    wraps s = true ↔ s.cursorColumn.toNat + 1 = s.cfg.columns.toNat := by
  rw [wraps, decide_eq_true_eq, ← BitVec.toNat_inj, succ_toNat h]

theorem nextRow_eq_ofNat {cfg : Config} {row : Byte} (h : row.toNat < cfg.rows.toNat) :
    nextRow cfg row = BitVec.ofNat 8 ((row.toNat + 1) % cfg.rows.toNat) := by
  apply BitVec.eq_of_toNat_eq
  have := Nat.mod_lt (row.toNat + 1) (show 0 < cfg.rows.toNat by omega)
  have := cfg.rows.isLt
  rw [nextRow_toNat _ _ h, BitVec.toNat_ofNat, Nat.mod_eq_of_lt (a := (row.toNat + 1) % cfg.rows.toNat)]
  omega

/-! ## NEWLINE -/

/-- NEWLINE's target is on the geometry, so the LOCATE inside it "cannot fail" (R101). -/
theorem inGeometry_nextRow {cfg : Config} (h : cfg.wf = true) {row : Byte} (hr : row.toNat < cfg.rows.toNat) :
    InGeometry cfg 0 (nextRow cfg row).toNat := by
  obtain ⟨_, _, -, -⟩ := config_wf_cases h
  have := nextRow_lt cfg row hr
  exact ⟨by omega, by omega, by omega, by omega⟩

/-- The events of NEWLINE: the one command that addresses the start of the next row (R101). -/
theorem evNewline_eq {cfg : Config} (h : cfg.wf = true) {row : Byte} (hr : row.toNat < cfg.rows.toNat) :
    evNewline cfg row = evCommand cfg (addressCommand (ddramAddr cfg ((row.toNat + 1) % cfg.rows.toNat) 0)) := by
  rw [evNewline, evLocate, if_pos (inGeometry_nextRow h hr), Int.toNat_natCast, nextRow_toNat _ _ hr]
  rfl

/-- What LOCATE sends: the one command of the cell (R112). -/
theorem sends_evLocate {cfg : Config} {column row : Int} (h : InGeometry cfg column row) :
    Sends cfg (evLocate cfg column row) [(false, addressCommand (ddramAddr cfg row.toNat column.toNat))] := by
  rw [evLocate, if_pos h]
  exact sends_evCommand _ _

/-- What NEWLINE sends: the command that addresses the start of the next row (R101). -/
theorem sends_evNewline {cfg : Config} (h : cfg.wf = true) {row : Byte} (hr : row.toNat < cfg.rows.toNat) :
    Sends cfg (evNewline cfg row)
      [(false, addressCommand (ddramAddr cfg ((row.toNat + 1) % cfg.rows.toNat) 0))] := by
  rw [evNewline_eq h hr]
  exact sends_evCommand _ _

/-- The command of a cell's address is one the block may emit (R54, R84). -/
theorem mayEmit_addressCommand {cfg : Config} (h : cfg.wf = true) {row column : Nat} (hr : row < cfg.rows.toNat)
    (hc : column < cfg.columns.toNat) : mayEmit cfg (false, addressCommand (ddramAddr cfg row column)) = true := by
  obtain ⟨-, h7, ha⟩ := addressCommand_fields (ddramAddr_le h hr hc)
  simp [mayEmit, h7, ha, mapsTo_ddramAddr h hr hc]

/-! ## Admitted operations -/

theorem refusal_of_mayOperate {s : State} (h : s.MayOperate) : s.refusal .operation = none :=
  refusal_operation_eq_none.mpr ⟨h.idle, h.ready, h.config⟩

theorem mayOperate_of_admitted {s : State} (h : s.refusal .operation = none) : s.MayOperate :=
  let ⟨h1, h2, h3⟩ := refusal_operation_eq_none.mp h
  ⟨h1, h2, h3⟩

/-- A command performed whole, as one update (R76). -/
theorem emitAll_evCommand (cfg : Config) (b : Byte) (s : State) :
    emitAll (evCommand cfg b) s = { s with
      rs := some false, e := some true, db := some (lowNibble b.toNat), trace := s.trace ++ evCommand cfg b } := by
  rw [emitAll_eq, replay_evCommand]

/-- A data byte performed whole, as one update (R77). -/
theorem emitAll_evData (cfg : Config) (b : Byte) (s : State) :
    emitAll (evData cfg b) s = { s with
      rs := some true, e := some true, db := some (lowNibble b.toNat), trace := s.trace ++ evData cfg b } := by
  rw [emitAll_eq, replay_evData]

end Sys2Proof.Machine
end

