-- ==== Sys2Proof/Laws/PerInstr.lean ====
section
/-! SUPPORT. Statements made per instruction. The family TableRow: the word an instruction is encoded as is an instance
of its row of spec/opcode_table.json (its format, and its masked bits the row's match). -/

namespace Sys2Proof.Laws.TableRow

/-- The word of an instruction matches its row of the opcode table. -/
def Statement (i : Instr) : Prop := i.row.accepts (encode i) = true

theorem of_reqWord {i : Instr} (op : BitVec 3) (a b : Byte) (he : encode i = .req19 (reqWord op a b))
    (hr : i.row = ⟨.req19, op.toNat * 0x10000, 0x70000⟩) : Statement i := by
  simp [Statement, he, hr, OpRow.accepts, PortWord.format, PortWord.bits, reqWord_mask]

theorem init : Statement .init := of_reqWord 0 0 0 rfl rfl

theorem writeChar (c : Byte) : Statement (.writeChar c) := of_reqWord 1 c 0 rfl rfl

theorem locate (column row : Int) : Statement (.locate column row) := of_reqWord 2 _ _ rfl rfl

theorem clear : Statement .clear := of_reqWord 3 0 0 rfl rfl

theorem newline : Statement .newline := of_reqWord 4 0 0 rfl rfl

theorem clearDisplay : Statement .clearDisplay := rfl

theorem entryModeSet : Statement .entryModeSet := rfl

theorem displayControl : Statement .displayControl := rfl

theorem functionSet : Statement .functionSet := rfl

theorem setDdramAddr (a : Addr) : Statement (.setDdramAddr a) := by
  simp only [Statement]
  revert a; decide

theorem initNibble3 : Statement .initNibble3 := rfl

theorem initNibble2 : Statement .initNibble2 := rfl

theorem writeData (d : Byte) : Statement (.writeData d) := by
  simp [Statement, OpRow.accepts, encode, Instr.row, PortWord.format]

end Sys2Proof.Laws.TableRow
end

