-- ==== Sys2Proof/Laws/Run.lean ====
section
/-! SUPPORT. Runs of several steps: a run of no steps stays, a run goes on from the
next state, and a run of an accepted operation performs its pending events in order (40_transfer_primitives.md rule R78). -/

namespace Sys2Proof.Machine

@[simp] theorem steps_zero (s : State) : steps 0 s = .next s := rfl

theorem steps_of_next {s t : State} (h : step s = .next t) (n : Nat) : steps (n + 1) s = steps n t := by
  rw [steps, h]

theorem steps_of_refused {s : State} {r : Refusal} (h : step s = .refused r) (n : Nat) :
    steps (n + 1) s = .refused r := by
  rw [steps, h]

/-- A run that answers a next state took a next state first. -/
theorem steps_succ_cases {n : Nat} {s u : State} (h : steps (n + 1) s = .next u) :
    ∃ t, step s = .next t ∧ steps n t = .next u := by
  cases hs : step s with
  | next t => exact ⟨t, rfl, by rw [← steps_of_next hs]; exact h⟩
  | fault f => cases f
  | refused r => rw [steps_of_refused hs] at h; cases h

/-- Runs join. -/
theorem steps_add {m : Nat} (n : Nat) {s t : State} (h : steps m s = .next t) :
    steps (m + n) s = steps n t := by
  induction m generalizing s with
  | zero =>
    rw [steps_zero] at h
    injection h with h
    subst h
    rw [Nat.zero_add]
  | succ m ih =>
    obtain ⟨s', hs, hm⟩ := steps_succ_cases h
    rw [show m + 1 + n = (m + n) + 1 by omega, steps_of_next hs]
    exact ih hm

/-- A run at the operation level neither reads nor writes the result owed at the event level. -/
theorem steps_setReturning {n : Nat} {s t : State} (r : Option Response) (hp : s.pending = [])
    (hl : s.level = .operation) (h : steps n s = .next t) :
    steps n (s.setReturning r) = .next (t.setReturning r) ∧ t.returning = s.returning := by
  induction n generalizing s with
  | zero => rw [steps_zero] at h ⊢; injection h with h; subst h; exact ⟨rfl, rfl⟩
  | succ n ih =>
    obtain ⟨u, hs, hr⟩ := steps_succ_cases h
    rcases step_cases hs with ⟨ev, rest, hp', _⟩ | ⟨_, hq, rfl⟩ | ⟨q, rest, i, _, hq, hf, hx⟩
    · rw [hp] at hp'; cases hp'
    · have hs' : step (u.setReturning r) = .next (u.setReturning r) := by simp [step, hp, hq]
      rw [steps_of_next hs']
      exact ih hp hl hr
    · have hx' : exec i (s.setRequests rest) = .next u := by simpa [runAt, hl] using hx
      have hs' : step (s.setReturning r) = .next (u.setReturning r) := by
        have : step (s.setReturning r) = exec i ((s.setRequests rest).setReturning r) := by
          simp [step, hp, hq, hf, runAt, hl]; rfl
        rw [this]; exact exec_setReturning r hx'
      obtain ⟨_, rfl⟩ := exec_eq_next hx'
      rw [steps_of_next hs']
      simpa using ih (by simpa using hp) (by simpa using hl) hr

/-- Pending events, run to their end, are performed in order, nothing stays pending, and the operation has returned. -/
theorem steps_complete {n : Nat} {s : State} (hn : s.pending.length = n) :
    steps n (complete s) = .next (complete (emitAll s.pending (s.setPending []))) := by
  induction n generalizing s with
  | zero =>
    have hp : s.pending = [] := List.length_eq_zero_iff.mp hn
    rw [steps_zero, hp, emitAll_nil, State.setPending_self _ _ hp]
  | succ n ih =>
    obtain ⟨ev, rest, hp⟩ : ∃ ev rest, s.pending = ev :: rest := by
      cases hp : s.pending with
      | nil => simp [hp] at hn
      | cons ev rest => exact ⟨ev, rest, rfl⟩
    have hs : step s = .next (complete ((s.setPending rest).emit ev)) := by simp only [step, hp, performHead]
    have hl : ((s.setPending rest).emit ev).pending.length = n := by simpa [hp] using hn
    rw [complete_of_pending (by simp [hp]), steps_of_next hs, ih hl, hp]
    simp [State.emit_setPending]

/-- An accepted instruction, run to its end. -/
theorem steps_accepted (i : Instr) (s : State) :
    steps (eventsOf i s).length (accepted i s) = .next ((emitAll (eventsOf i s)
      (((s.setRegisters (registersAfter i s)).deliver (resultOf s.cfg i)).setPending [])).setReturning none) := by
  rw [accepted, steps_complete (by simp), complete_of_idle (by simp)]
  simp only [State.setPending_pending, State.setPending_setPending, emitAll_setPending, emitAll_setReturning,
    emitAll_deliver, State.setReturning_returning, State.setPending_returning]
  rfl

end Sys2Proof.Machine
end

