-- ==== Sys2Proof/Laws/Safety.lean ====
section
/-! SUPPORT. Safe states: what an admitted operation of a host sends and where it leaves the cursor, and the shape of a
safe block's history. -/

namespace Sys2Proof.Machine

/-- What an admitted operation sends: whole bytes, each one the block may emit (R54, R59, R61). -/
theorem sends_eventsOf {i : Instr} {s : State} (hu : i.upward = true) (hi : i ≠ .init) (h : s.MayOperate)
    (hr : s.cursorRow.toNat < s.cfg.rows.toNat) :
    ∃ bs, Sends s.cfg (eventsOf i s) bs ∧ bs.all (mayEmit s.cfg) = true := by
  have nl := sends_evNewline h.3 hr
  have me := mayEmit_addressCommand h.3
    (Nat.mod_lt (s.cursorRow.toNat + 1) (show 0 < s.cfg.rows.toNat by omega)) (config_wf_cases h.3).2.1
  cases i <;> first | (cases hu; done) | skip
  · exact absurd rfl hi
  · rename_i c
    simp only [eventsOf]
    by_cases hc : c = s.cfg.newlineChar
    · rw [if_pos hc]; exact ⟨_, nl, by simpa using me⟩
    · rw [if_neg hc]
      split
      · exact ⟨_, (sends_evData _ _).append nl, by simpa [mayEmit, hc] using me⟩
      · exact ⟨_, sends_evData _ _, by simpa [mayEmit] using hc⟩
  · rename_i column row
    by_cases hg : InGeometry s.cfg column row
    · exact ⟨_, sends_evLocate hg, by
        have := mayEmit_addressCommand h.3 (row := row.toNat) (column := column.toNat) (by omega) (by omega)
        simpa using this⟩
    · exact ⟨[], by simpa [eventsOf, evLocate, hg] using Sends.nil _, rfl⟩
  · exact ⟨_, sends_evClear _, by simp [mayEmit]⟩
  · exact ⟨_, nl, by simpa using me⟩

/-- A host's request carries an upward instruction (R50). -/
theorem fetch_upward {r : Request} {i : Instr} (hr : r.fromHost = true) (hf : fetch r = .ok i) : i.upward = true := by
  cases r with
  | op j => cases hf; exact hr
  | word w =>
    cases w with
    | req19 w =>
      simp only [fetch, decode, decodeReq] at hf
      revert hf
      repeat' split
      all_goals (intro hf; first | (cases hf; rfl) | cases hf)
    | _ => cases hr

/-- An admitted operation keeps the cursor on the geometry (R14, R103 (d)). -/
theorem cursor_registersAfter {i : Instr} {s : State} (h : s.MayOperate) (hu : i.upward = true) (hi : i ≠ .init)
    (hr : s.cursorRow.toNat < s.cfg.rows.toNat) (hc : s.cursorColumn.toNat < s.cfg.columns.toNat) :
    (registersAfter i s).cursorRow.toNat < s.cfg.rows.toNat ∧
      (registersAfter i s).cursorColumn.toNat < s.cfg.columns.toNat ∧ (registersAfter i s).phase = .ready := by
  have nr := nextRow_lt s.cfg s.cursorRow hr
  have c0 := (config_wf_cases h.3).2.1
  cases i <;> first | (cases hu; done) | skip
  · exact absurd rfl hi
  · simp only [registersAfter]
    split
    · exact ⟨nr, c0, h.2⟩
    · rename_i hn
      refine ⟨hr, ?_, h.2⟩
      have : ¬ wraps s = true := fun h => hn (.inr h)
      rw [wraps_iff hc] at this
      show (s.cursorColumn + 1).toNat < _
      rw [succ_toNat hc]; omega
  · rename_i column row
    simp only [registersAfter]
    split
    · rename_i hg
      have h1 := s.cfg.rows.isLt
      have h2 := s.cfg.columns.isLt
      have hg : 0 ≤ column ∧ column < s.cfg.columns.toNat ∧ 0 ≤ row ∧ row < s.cfg.rows.toNat := hg
      refine ⟨?_, ?_, h.2⟩ <;> simp <;> omega
    · exact ⟨hr, hc, h.2⟩
  · exact ⟨hr, hc, h.2⟩
  · exact ⟨nr, c0, h.2⟩

/-- The history of a constructed block is INIT's events and then whole bytes (R37). -/
theorem history_of_ready {s : State} (h : s.Safe) (hf : s.phase = .ready) :
    ∃ es, s.history = evInit s.cfg ++ es ∧ byteRun s.cfg es = some (.nIdle, .bIdle) := by
  have ht := h.transfers
  unfold State.WholeTransfers at ht
  rw [hf] at ht
  obtain ⟨hp, hb⟩ := ht
  obtain ⟨es, he⟩ := List.isPrefixOf_iff_prefix.mp hp
  refine ⟨es, he.symm, ?_⟩
  rwa [← he, List.drop_left' (length_evInit _)] at hb

theorem whole_history {s : State} (h : s.Safe) (hf : s.phase = .ready) : Whole s.history := by
  obtain ⟨es, he, hb⟩ := history_of_ready h hf
  rw [he]; exact (whole_of_byteRun hb).1

theorem wholeTransfers_of_ready {s : State} (hf : s.phase = .ready) {es : List Event}
    (he : s.history = evInit s.cfg ++ es) (hb : byteRun s.cfg es = some (.nIdle, .bIdle)) : s.WholeTransfers := by
  unfold State.WholeTransfers
  rw [hf]
  refine ⟨List.isPrefixOf_iff_prefix.mpr ⟨es, he.symm⟩, ?_⟩
  rwa [he, List.drop_left' (length_evInit _)]

/-- What running an instruction changes at either level: the registers and the history. -/
theorem runAt_changes {i : Instr} {s t : State} (h : runAt i s = .next t) :
    t.cfg = s.cfg ∧ t.registers = registersAfter i s ∧ t.history = s.history ++ eventsOf i s ∧
      t.requests = s.requests := by
  obtain ⟨hn, hc⟩ := runAt_cases h
  have hp := pending_of_admitted hn
  rcases hc with ⟨_, rfl⟩ | ⟨_, rfl⟩
  · exact ⟨by simp, by simp [State.registers], by simp [State.history, hp], by simp⟩
  · exact ⟨by simp, accepted_registers i s, by simp [State.history, hp], by simp⟩

theorem whole_trace {s : State} (h : s.Safe) (hm : s.MayOperate) : Whole s.trace := by
  have := whole_history h hm.2
  simpa [State.history, hm.1] using this

/-- A set-address command puts the display's pointer at its address, wherever it was (R43). -/
theorem pointerFrom_addressCommand {p : Option Addr} {a : Nat} (h : a ≤ 0x7F) :
    pointerFrom p [(false, addressCommand a)] = some (BitVec.ofNat 7 a) := by
  obtain ⟨h1, h2, h3⟩ := addressCommand_fields h
  simp [pointerFrom, pointerAfter, h2, h3]
  exact fun h => absurd h h1

end Sys2Proof.Machine
end

