-- ==== Sys2Proof/Tests/Slice0.lean ====
section
/-! SUPPORT. Tests with expected results from the spec's own examples and tables (95_test_vectors.md, and the rules
named), each about one step on a small state; and for every obligation with hypotheses a witness that meets them. -/

namespace Sys2Proof.Tests

open Sys2Proof Sys2Proof.Machine

/-! ## Helpers -/

/-- A constructed block, idle, with the cursor at a position and an empty trace. -/
def cursorAt (column row : Byte) : State :=
  { State.construction Config.config4x20 with
    cursorRow := row, cursorColumn := column, rs := some false, e := some true, db := some 1, phase := .ready }

/-- The block after INIT, with INIT's trace. -/
def afterInit : State := initBody State.reset

/-- What one request did: the bytes sent, the cursor as (column, row), the number of events, the result. -/
def effect (i : Instr) (s : State) : Option (List (Bit × Byte) × (Byte × Byte) × Nat × Response) :=
  match exec i s with
  | .next t => some (pairNibbles (nibblesFrom s.lines (t.trace.drop s.trace.length)), (t.cursorColumn, t.cursorRow),
      t.trace.length - s.trace.length, t.response)
  | .fault _ => none
  | .refused _ => none

/-- The state after an instruction that completes. -/
def after (i : Instr) (s : State) : State :=
  match exec i s with
  | .next t => t
  | .fault _ => s
  | .refused _ => s

/-- The cursor as (column, row) and the result after one step. -/
def stepped (s : State) : Option ((Byte × Byte) × Response) :=
  match step s with
  | .next t => some ((t.cursorColumn, t.cursorRow), t.response)
  | .fault _ => none
  | .refused _ => none

/-- The nibbles one item put on the bus, and its last event. -/
def onBus (i : Instr) : Option (List (Bit × Nibble) × Option Event) :=
  match exec i (cursorAt 0 0) with
  | .next t => some (nibblesFrom (cursorAt 0 0).lines t.trace, t.trace.getLast?)
  | .fault _ => none
  | .refused _ => none

/-! ## Well-formedness: an ill-formed term for each check -/

/-- R58: LOCATE's operands are u8 in REQ19; R110 (e): a negative one exists only at the abstract interface. -/
theorem test_wf_locate_too_wide : (Instr.locate 256 0).wf Config.config4x20 = false := by decide
theorem test_wf_locate_row_too_wide : (Instr.locate 0 256).wf Config.config4x20 = false := by decide
theorem test_wf_locate_negative : (Instr.locate (-1) 0).wf Config.config4x20 = false := by decide
theorem test_wf_locate_byte : (Instr.locate 255 255).wf Config.config4x20 = true := by decide

/-- R34: "Addresses 0x28 to 0x3F and 0x68 to 0x7F are never produced by this configuration". -/
theorem test_wf_address_not_mapped : (Instr.setDdramAddr 0x28).wf Config.config4x20 = false := by decide
theorem test_wf_address_past_last : (Instr.setDdramAddr 0x68).wf Config.config4x20 = false := by decide
theorem test_wf_address_last : (Instr.setDdramAddr 0x67).wf Config.config4x20 = true := by decide

/-- R56: every value but 0x0A. -/
theorem test_wf_data_newline : (Instr.writeData 0x0A).wf Config.config4x20 = false := by decide
theorem test_wf_data_return : (Instr.writeData 0x0D).wf Config.config4x20 = true := by decide

/-- The configuration checks of 95_test_vectors.md: R25's four conditions, each broken alone. -/
theorem test_config_4x20 : Config.config4x20.wf = true := by decide
theorem test_config_address_too_high :
    { Config.config4x20 with rowBase := [0x00, 0x40, 0x14, 0x70] }.wf = false := by decide
theorem test_config_highest_address :
    { Config.config4x20 with rowBase := [0x00, 0x40, 0x14, 0x6C] }.wf = true := by decide
theorem test_config_short_table : { Config.config4x20 with rowBase := [0x00, 0x40, 0x14] }.wf = false := by decide
theorem test_config_no_rows : { Config.config4x20 with rows := 0, rowBase := [] }.wf = false := by decide
theorem test_config_no_columns : { Config.config4x20 with columns := 0 }.wf = false := by decide

/-! ## Decoding: words written bit by bit from the encodings of file 30 -/

/-- INIT, `000xxxxxxxxxxxxxxxx`, the ignored bits written 1. -/
theorem test_decode_init : decode (.req19 0b000_11111111_11111111) = .ok .init := by decide
/-- WRITE_CHAR 'T' (P1: 0x15400). -/
theorem test_decode_writeChar : decode (.req19 0b001_01010100_00000000) = .ok (.writeChar 0x54) := by decide
/-- LOCATE(19, 3) (P2: 0x21303): column first. -/
theorem test_decode_locate : decode (.req19 0b010_00010011_00000011) = .ok (.locate 19 3) := by decide
/-- CLEAR (V-E4: 0x3ABCD). -/
theorem test_decode_clear : decode (.req19 0b011_10101011_11001101) = .ok .clear := by decide
/-- NEWLINE (0x40000). -/
theorem test_decode_newline : decode (.req19 0b100_00000000_00000000) = .ok .newline := by decide
/-- V-E3. -/
theorem test_decode_reserved_op :
    decode (.req19 0x50000) = .error .reservedOp ∧ decode (.req19 0x60000) = .error .reservedOp ∧
      decode (.req19 0x70000) = .error .reservedOp := by decide
theorem test_decode_clearDisplay : decode (.cmd8 0b00000001) = .ok .clearDisplay := by decide
theorem test_decode_entryModeSet : decode (.cmd8 0b00000110) = .ok .entryModeSet := by decide
theorem test_decode_displayControl : decode (.cmd8 0b00001100) = .ok .displayControl := by decide
theorem test_decode_functionSet : decode (.cmd8 0b00101000) = .ok .functionSet := by decide
/-- SET_DDRAM_ADDR 0x14 (V-C7: 0x94). -/
theorem test_decode_setDdramAddr : decode (.cmd8 0b10010100) = .ok (.setDdramAddr 0x14) := by decide
theorem test_decode_initNibble3 : decode (.nib4 0b0011) = .ok .initNibble3 := by decide
theorem test_decode_initNibble2 : decode (.nib4 0b0010) = .ok .initNibble2 := by decide
theorem test_decode_writeData : decode (.data8 0b00001101) = .ok (.writeData 0x0D) := by decide
/-- R59, R88: no return-home (0x02), no other function set, no other nibble. -/
theorem test_decode_never_emitted :
    decode (.cmd8 0x02) = .error .neverEmittedCommand ∧ decode (.cmd8 0x38) = .error .neverEmittedCommand ∧
      decode (.nib4 0x1) = .error .neverEmittedNibble := by decide

/-! ## The host's two hooks -/

theorem test_table_word :
    decodeTableWord 24 0x21303 = some (.locate 19 3) ∧ decodeTableWord 8 0x80 = some (.setDdramAddr 0) ∧
      decodeTableWord 8 0x03 = some .initNibble3 ∧ decodeTableWord 8 0x00 = some (.writeData 0) ∧
      decodeTableWord 24 0x50000 = none := by decide

/-- R43, and assumption log 17: a nibble without its partner is no byte yet. -/
theorem test_unpaired_nibble :
    pairNibbles [(true, 0x5), (true, 0x8), (true, 0x4)] = [(true, 0x58)] := by decide

/-- V-I5's nearest accepted neighbour: `write_char('A')` after INIT leaves (1, 0), all from reset by one step. -/
theorem test_fetch_word :
    stepped (State.reset.withFetchWord 24 0x14100) = some ((1, 0), .ret 0x41) := by decide

/-! ## Transfer primitives -/

/-- V-P2: the upper bits of the operand are discarded. -/
theorem test_nibble_low_bits :
    (writeNibble 0x28 (cursorAt 0 0)).trace = [.setDB 8, .wait 40, .setE false, .wait 40, .setE true] := by decide

/-- V-P6: high nibble first. -/
theorem test_byte_high_first :
    (writeByte 0xA5 (cursorAt 0 0)).trace =
      [.setDB 0xA, .wait 40, .setE false, .wait 40, .setE true,
       .setDB 0x5, .wait 40, .setE false, .wait 40, .setE true] := by decide

/-- V-P8: register-select is rewritten anyway. -/
theorem test_command_rewrites_rs : (sendCommand 0x80 (cursorAt 0 0)).trace.head? = some (.setRS false) := by decide

/-- V-P9. -/
theorem test_data_lines : (sendData 0x58 (cursorAt 0 0)).lines = ⟨some true, some true, some 8⟩ := by decide

/-! ## INIT -/

/-- V-I1: the state after. -/
theorem test_init_state :
    afterInit.lines = ⟨some false, some true, some 1⟩ ∧ afterInit.phase = .ready ∧
      (afterInit.cursorColumn, afterInit.cursorRow) = (0, 0) := by decide

/-- R99's table, indices 0 to 25 (steps 1 to 4). -/
theorem test_init_first_events :
    afterInit.trace.take 26 =
      [.setE true, .setRS false, .wait 15000,
       .setDB 3, .wait 40, .setE false, .wait 40, .setE true, .wait 1640,
       .setDB 3, .wait 40, .setE false, .wait 40, .setE true, .wait 1640,
       .setDB 3, .wait 40, .setE false, .wait 40, .setE true, .wait 1640,
       .setDB 2, .wait 40, .setE false, .wait 40, .setE true] := by decide

/-- R99's table, indices 59 to 70 (step 8). -/
theorem test_init_last_events :
    afterInit.trace.drop 59 =
      [.setRS false, .setDB 0, .wait 40, .setE false, .wait 40, .setE true,
       .setDB 1, .wait 40, .setE false, .wait 40, .setE true, .wait 1640] := by decide

/-- R99's sum of waits. -/
theorem test_init_duration : minDuration afterInit.trace = 22520 := by decide

/-- V-I4 and V-I5. -/
theorem test_init_twice : exec .init (cursorAt 0 0) = .refused .alreadyInitialized := rfl
theorem test_before_init : exec (.writeChar 0x41) State.reset = .refused .notInitialized := rfl

/-! ## Text operations -/

/-- V-T2: at the last cell the byte is sent, then the wrap. -/
theorem test_writeChar_wraps :
    effect (.writeChar 0x58) (cursorAt 19 3) =
      some ([(true, 0x58), (false, 0x80)], (0, 0), 22, .ret 0x58) := by decide

/-- V-T4: a newline byte sends no data. -/
theorem test_writeChar_newline :
    effect (.writeChar 0x0A) (cursorAt 5 2) = some ([(false, 0xD4)], (0, 3), 11, .ret 0x0A) := by decide

/-- V-T7 and V-T8. -/
theorem test_newline_next_row :
    effect .newline (cursorAt 5 2) = some ([(false, 0xD4)], (0, 3), 11, .noResult) := by decide
theorem test_newline_last_row :
    effect .newline (cursorAt 5 3) = some ([(false, 0x80)], (0, 0), 11, .noResult) := by decide

/-! ## Cursor operations -/

/-- V-L2 and V-L3e. -/
theorem test_locate_last_cell :
    effect (.locate 19 3) (cursorAt 0 0) = some ([(false, 0xE7)], (19, 3), 11, .ok) := by decide
theorem test_locate_bad_column :
    effect (.locate 20 3) (cursorAt 7 2) = some ([], (7, 2), 0, .err .outOfRange) := by decide

/-- V-L5: the cursor is left. -/
theorem test_clear_leaves_cursor :
    effect .clear (cursorAt 5 2) = some ([(false, 0x01)], (5, 2), 12, .noResult) := by decide

/-! ## The event level -/

/-- The result of a WRITE_CHAR and the events still pending, after `n` steps from its acceptance. -/
def resultAfter (n : Nat) : Option (Response × Nat) :=
  match accept (.writeChar 0x41) (cursorAt 3 1) with
  | .next t =>
    match steps n t with
    | .next u => some (u.response, u.pending.length)
    | .fault _ => none
    | .refused _ => none
  | .fault _ => none
  | .refused _ => none

/-- V-T1 at the event level (R78): eleven events, and 0x41 is returned with the last of them, not before. -/
theorem test_result_before_last_event : resultAfter 10 = some (.noResult, 1) := by decide
theorem test_result_at_last_event : resultAfter 11 = some (.ret 0x41, 0) := by decide

/-! ## Emitted items (V-C1 to V-C12) -/

theorem test_clearDisplay :
    onBus .clearDisplay = some ([(false, 0x0), (false, 0x1)], some (.wait 1640)) := by decide
theorem test_entryModeSet :
    onBus .entryModeSet = some ([(false, 0x0), (false, 0x6)], some (.setE true)) := by decide
theorem test_displayControl :
    onBus .displayControl = some ([(false, 0x0), (false, 0xC)], some (.setE true)) := by decide
theorem test_functionSet :
    onBus .functionSet = some ([(false, 0x2), (false, 0x8)], some (.setE true)) := by decide
theorem test_setDdramAddr :
    onBus (.setDdramAddr 0x67) = some ([(false, 0xE), (false, 0x7)], some (.setE true)) := by decide
theorem test_initNibble3 : onBus .initNibble3 = some ([(false, 0x3)], some (.wait 1640)) := by decide
theorem test_initNibble2 : onBus .initNibble2 = some ([(false, 0x2)], some (.setE true)) := by decide
theorem test_writeData : onBus (.writeData 0xFF) = some ([(true, 0xF), (true, 0xF)], some (.setE true)) := by decide

/-! ## Witnesses

For each obligation with hypotheses, concrete values that meet all of them together; one for each clause, at the
boundary of its range. Obligations with the same hypotheses share a theorem:

* InitRunsTheProtocol: witness_mayConstruct.
* ClearSendsOneAndWaitsLong, ResponsesOfOperations, NewlineSynchronises, and the MayOperate of every obligation: witness_mayOperate and, at
  the last cell, witness_mayOperate_lastCell.
* the Safe of every obligation: witness_safe_afterInit and witness_safe_lastCell.
* CommandItemsSendTheirByte, InitNibblesAreLoneFrames and the idle block of the other items:
  witness_IdleEnableHighAndNibblesPaired.
* the others: the theorem of their own name, or the one whose docstring names them.

The remaining obligations have no hypotheses. -/

theorem witness_mayOperate : afterInit.MayOperate := ⟨rfl, rfl, rfl⟩

theorem witness_mayConstruct : State.reset.MayConstruct := ⟨rfl, rfl, rfl⟩

/-- A block just initialized is safe. -/
theorem witness_safe_afterInit : afterInit.Safe where
  lines := by decide
  contract := by decide
  cursor := by intro _; decide
  host := by decide
  transfers := ⟨by decide, by decide⟩
  emits := by decide
  owes := by decide

theorem witness_inSync_afterInit : afterInit.InSync := by decide

/-- A block moved to the last cell: the last column of the last row. -/
def atLastCell : State := after (.locate 19 3) afterInit

theorem witness_mayOperate_lastCell : atLastCell.MayOperate := ⟨by decide, by decide, by decide⟩

theorem witness_safe_lastCell : atLastCell.Safe where
  lines := by decide
  contract := by decide
  cursor := by intro _; decide
  host := by decide
  transfers := ⟨by decide, by decide⟩
  emits := by decide
  owes := by decide

theorem witness_DecodeOfEncodeIsTheInstruction :
    (Instr.locate 255 255).encodable = true ∧ (Instr.setDdramAddr 0x7F).encodable = true := by decide

theorem witness_DecodeFollowsOpcodeTable :
    decode (.req19 0x47FFF) = .ok .newline ∧ decode (.req19 0x50000) = .error .reservedOp := by decide

/-- An idle block with one request, at either level. -/
def requested (l : Level) (r : Request) : State := (afterInit.setLevel l).setRequests [r]

theorem witness_StepRunsTheDecodedInstruction :
    (∀ l, (requested l (.word (.req19 0x21303))).pending = [] ∧
      (requested l (.word (.req19 0x21303))).requests = .word (.req19 0x21303) :: [] ∧
      (requested l (.word (.req19 0x21303))).level = l) ∧
    decode (.req19 0x21303) = .ok (.locate 19 3) := by
  refine ⟨fun l => ⟨rfl, rfl, rfl⟩, by decide⟩

/-- An operation requested at the abstract interface, its operands outside u8 (R110 (e)). -/
theorem witness_StepRunsTheDecodedInstruction_op :
    ∀ l, (requested l (.op (.locate (-1) 256))).pending = [] ∧
      (requested l (.op (.locate (-1) 256))).requests = .op (.locate (-1) 256) :: [] ∧
      (requested l (.op (.locate (-1) 256))).level = l := fun _ => ⟨rfl, rfl, rfl⟩

theorem witness_StepRefusesWhatDoesNotDecode :
    (requested .operation (.word (.cmd8 0x02))).pending = [] ∧
      (requested .operation (.word (.cmd8 0x02))).requests = .word (.cmd8 0x02) :: [] ∧
      decode (.req19 0x70000) = .error .reservedOp ∧ decode (.cmd8 0x02) = .error .neverEmittedCommand ∧
      decode (.nib4 0x0) = .error .neverEmittedNibble := by decide

theorem witness_StepPerformsNextEventOrIdles :
    (afterInit.setPending [.setRS true, .wait 0]).pending = .setRS true :: [.wait 0] ∧
      (afterInit.setPending [.setE false]).pending = .setE false :: [] ∧
      (afterInit.setPending [.setDB 0xF]).pending = .setDB 0xF :: [] ∧
      (afterInit.setPending [.wait 0]).pending = .wait 0 :: [] ∧
      afterInit.pending = [] ∧ afterInit.requests = [] := by decide

theorem witness_FetchWordRunsItsInstruction :
    decodeTableWord 24 0x00000 = some .init ∧ decodeTableWord 24 0x40000 = some .newline ∧
      decodeTableWord 8 0xFF = some (.setDdramAddr 0x7F) ∧ decodeTableWord 4 0x2 = some .initNibble2 := by decide

/-- The three clauses: the newline byte, the last column, and a column before it; the row is the last. -/
theorem witness_WriteCharSendsAdvancesAndWraps :
    atLastCell.cursorRow.toNat < atLastCell.cfg.rows.toNat ∧ 0x0A = atLastCell.cfg.newlineChar ∧
      0x0D ≠ atLastCell.cfg.newlineChar ∧ atLastCell.cursorColumn.toNat + 1 = atLastCell.cfg.columns.toNat ∧
      (after (.locate 18 3) afterInit).cursorColumn.toNat + 1 < atLastCell.cfg.columns.toNat := by decide

/-- Also of NewlineIsLocateOfNextRow and OperationsAddTheirDuration. -/
theorem witness_NewlineMovesToNextRow :
    (afterInit.cursorRow.toNat < afterInit.cfg.rows.toNat ∧ afterInit.cursorColumn + 1 ≠ afterInit.cfg.columns) ∧
      atLastCell.cursorRow.toNat < atLastCell.cfg.rows.toNat ∧
      atLastCell.cursorColumn + 1 = atLastCell.cfg.columns := by decide

/-- Also of AddressMapOfFourByTwenty and MapperFitsSevenBits. -/
theorem witness_LocateThenWriteCharAdvances :
    19 < afterInit.cfg.columns.toNat ∧ 19 + 1 = afterInit.cfg.columns.toNat ∧ 0 < afterInit.cfg.columns.toNat ∧
      0 + 1 ≠ afterInit.cfg.columns.toNat ∧ 3 < afterInit.cfg.rows.toNat ∧
      0x00 ≠ afterInit.cfg.newlineChar ∧ Config.config4x20.wf = true := by decide

theorem witness_WriteStringIsRepeatedWriteChar :
    afterInit.pending = [] ∧ afterInit.requests = [] ∧ afterInit.level = .operation := by decide

/-- Also of LocateTwiceIsLocateOnce and LocateSynchronises: the first and the last cell. -/
theorem witness_LocateMovesCursorAndAddresses :
    InGeometry afterInit.cfg 0 0 ∧ InGeometry afterInit.cfg 19 3 := by decide

/-- The four ways off the geometry, each by one. -/
theorem witness_LocateOutOfRangeChangesNothing :
    (-1 : Int) < 0 ∧ (afterInit.cfg.columns.toNat : Int) ≤ 20 ∧ (afterInit.cfg.rows.toNat : Int) ≤ 4 ∧
      ¬ InGeometry afterInit.cfg (-1) 0 ∧ ¬ InGeometry afterInit.cfg 20 0 ∧ ¬ InGeometry afterInit.cfg 0 (-1) ∧
      ¬ InGeometry afterInit.cfg 0 4 := by decide

theorem witness_FailedLocateLeavesNoMark :
    exec (.locate 20 0) afterInit = .next (afterInit.respond (.err .outOfRange)) ∧
      Instr.newline.upward = true := ⟨rfl, rfl⟩

/-- Also of the other items: an idle block. The last cell's address, and one no cell has. -/
theorem witness_SetDdramAddrSendsItsAddress :
    afterInit.pending = [] ∧ 3 < afterInit.cfg.rowBase.length ∧ 19 < afterInit.cfg.columns.toNat ∧
      ddramAddr afterInit.cfg 3 19 = (0x67 : Addr).toNat ∧
      (∀ row : Fin 4, ∀ column : Fin 20, ddramAddr afterInit.cfg row column ≠ (0x68 : Addr).toNat) ∧
      afterInit.cfg.rowBase.length = 4 ∧ afterInit.cfg.columns.toNat = 20 := by decide

theorem witness_WriteDataSendsItsByte :
    0x0B ≠ afterInit.cfg.newlineChar ∧ 0x0A = afterInit.cfg.newlineChar := by decide

/-- A block with an ill-formed configuration, before and after INIT. -/
def illFormed (p : Phase) : State :=
  (State.construction { Config.config4x20 with rows := 0 }).setPhase p

theorem witness_RequestsAreRefusedInOrder :
    (afterInit.setPending [.wait 1]).pending ≠ [] ∧ afterInit.phase = .ready ∧ State.reset.phase = .uninit ∧
      Instr.clear.upward = true ∧ (illFormed .uninit).pending = [] ∧ (illFormed .uninit).phase = .uninit ∧
      (illFormed .uninit).cfg.wf = false ∧ (illFormed .ready).phase = .ready ∧
      (illFormed .ready).cfg.wf = false := by decide

theorem witness_AddressCommandCarriesAddress : 0x7F ≤ 0x7F := by decide

/-- Also of StepKeepsLinesAndContract and StepNeverWritesConfig: from reset, a step that runs INIT. -/
theorem witness_StepKeepsSafe :
    (State.reset.issue .construct).Safe ∧ ∃ t, step (State.reset.issue .construct) = .next t :=
  ⟨⟨by decide, by decide, by decide, by decide, ⟨rfl, rfl, rfl⟩, by decide, by decide⟩, _, rfl⟩

/-- Also of ResultReturnsAtCompletion, whose operation has events pending; and one that has none, a failed LOCATE. -/
theorem witness_EventLevelRefinesOperationLevel :
    (∃ t, accept .clear afterInit = .next t ∧ t.pending.length = 12) ∧ afterInit.returning = none ∧
      (∃ t, accept (.locate 20 0) afterInit = .next t ∧ t.pending = []) ∧
      accept .clear State.reset = .refused .notInitialized :=
  ⟨⟨_, rfl, rfl⟩, rfl, ⟨_, rfl, rfl⟩, rfl⟩

/-- A step that performs the last event of an operation that owes its result. -/
theorem witness_StepOwesResultOnlyInFlight :
    ((afterInit.setPending [.wait 1640]).setReturning (some .noResult)).OwesOnlyInFlight ∧
      ∃ t, step ((afterInit.setPending [.wait 1640]).setReturning (some .noResult)) = .next t :=
  ⟨by decide, _, rfl⟩

theorem witness_EventLevelRunsMatchOperationLevel :
    (State.reset.issue .construct).pending = [] ∧ (State.reset.issue .construct).level = .operation ∧
      (State.reset.issue .construct).returning = none ∧
      ∃ t, steps 1 (State.reset.issue .construct) = .next t := ⟨rfl, rfl, rfl, _, rfl⟩

theorem witness_StepOnlyAppendsEvents :
    (∃ t, step (afterInit.setPending [.setE true]) = .next t) ∧
      (afterInit.setPending [.setE true]).pending ≠ [] := ⟨⟨_, rfl⟩, by decide⟩

/-- An operation requested by a call and one requested by a word. -/
theorem witness_SafeStepCompletesOrRefuses :
    ∀ r, (r = .op .clear ∨ r = .word (.req19 0x47FFF)) →
      (requested .operation r).Safe ∧ (requested .operation r).pending = [] ∧
      (requested .operation r).phase = .ready ∧ (requested .operation r).requests = r :: [] ∧
      ∃ i, fetch r = .ok i ∧ i ≠ .init := by
  rintro r (rfl | rfl)
  · exact ⟨⟨by decide, by decide, by intro _; decide, by decide, ⟨by decide, by decide⟩, by decide, by decide⟩,
      rfl, rfl, rfl, .clear, rfl, by decide⟩
  · exact ⟨⟨by decide, by decide, by intro _; decide, by decide, ⟨by decide, by decide⟩, by decide, by decide⟩,
      rfl, rfl, rfl, .newline, by decide, by decide⟩

theorem witness_IdleEnableHighAndNibblesPaired : afterInit.phase = .ready ∧ afterInit.pending = [] := by decide

/-- Each function has a state it answers and a state it refuses. -/
theorem witness_LinesNeverDecide :
    (∃ t, exec .clear afterInit = .next t) ∧ exec .clear State.reset = .refused .notInitialized ∧
      (∃ t, accept .clear afterInit = .next t) ∧ accept .clear State.reset = .refused .notInitialized ∧
      (∃ t, step (afterInit.setPending [.setE false]) = .next t) ∧
      step (State.reset.issue .clear) = .refused .notInitialized :=
  ⟨⟨_, rfl⟩, rfl, ⟨_, rfl⟩, rfl, ⟨_, rfl⟩, rfl⟩

/-- At the last cell, in sync, on a geometry whose rows keep to their line; and inside a row of it. -/
theorem witness_WriteCharStoresAtCursor :
    (atLastCell.InSync ∧ rowsKeepLine atLastCell.cfg = true ∧ 0x58 ≠ atLastCell.cfg.newlineChar ∧
      atLastCell.cursorColumn.toNat + 1 = atLastCell.cfg.columns.toNat) ∧
      afterInit.InSync ∧ afterInit.cursorColumn.toNat + 1 ≠ afterInit.cfg.columns.toNat := by decide

/-- A block of one row that crosses the end of a DDRAM line, its cells at 0x20 to 0x33. -/
def acrossLine : State :=
  after (.locate 0 0) (initBody (State.construction { Config.config4x20 with rows := 1, rowBase := [0x20] }))

/-- Also of FullRowWrapsAfterLastColumn: the clauses without `rowsKeepLine`, on a geometry where it fails. -/
theorem witness_WriteCharStoresAtCursor_acrossLine :
    acrossLine.MayOperate ∧ acrossLine.Safe ∧ acrossLine.InSync ∧ rowsKeepLine acrossLine.cfg = false ∧
      acrossLine.cursorColumn = 0 ∧ acrossLine.cfg.columns.toNat = 20 :=
  ⟨⟨by decide, by decide, by decide⟩,
    ⟨by decide, by decide, by intro _; decide, by decide, ⟨by decide, by decide⟩, by decide, by decide⟩,
    by decide, by decide, by decide, by decide⟩

theorem witness_FullRowWrapsAfterLastColumn :
    afterInit.cursorColumn = 0 ∧ (List.replicate 20 (0x41 : Byte)).length = afterInit.cfg.columns.toNat ∧
      afterInit.cfg.newlineChar ∉ List.replicate 20 (0x41 : Byte) ∧ rowsKeepLine afterInit.cfg = true := by decide

/-- Both sides of the last clause: at address 0 and away from it. -/
theorem witness_ClearDesynchronisesCursor :
    ddramAddr afterInit.cfg afterInit.cursorRow.toNat afterInit.cursorColumn.toNat = 0 ∧
      ddramAddr atLastCell.cfg atLastCell.cursorRow.toNat atLastCell.cursorColumn.toNat ≠ 0 := by decide

theorem witness_EnableFallsAreSpaced : afterInit.ContractKept := by decide

end Sys2Proof.Tests
end

section
/-! PROOFS. The step as one equation per case, what a step changes of the state, and the statements of 10_state.md about
the step itself (rules R11, R12, R18, R21) and about the configuration (rule R25). -/

namespace Sys2Proof.Machine

/-! ## The step, an equation per case -/

theorem step_of_pending {s : State} {ev : Event} {rest : List Event} (hp : s.pending = ev :: rest) :
    step s = .next (performHead ev rest s) := by simp only [step, hp]

theorem step_of_noRequest {s : State} (hp : s.pending = []) (hq : s.requests = []) : step s = .next s := by
  simp only [step, hp, hq]

theorem step_of_rejected {s : State} {r : Request} {rest : List Request} {e : Reject} (hp : s.pending = [])
    (hq : s.requests = r :: rest) (hf : fetch r = .error e) : step s = .refused (refusalOf e) := by
  simp only [step, hp, hq, hf]

theorem step_of_fetched {s : State} {r : Request} {rest : List Request} {i : Instr} (hp : s.pending = [])
    (hq : s.requests = r :: rest) (hf : fetch r = .ok i) : step s = runAt i (s.setRequests rest) := by
  simp only [step, hp, hq, hf]

theorem runAt_operation {s : State} (i : Instr) (hl : s.level = .operation) : runAt i s = exec i s := by
  simp only [runAt, hl]

theorem runAt_event {s : State} (i : Instr) (hl : s.level = .event) : runAt i s = accept i s := by
  simp only [runAt, hl]

/-- Settles O5: both forms of the request are fetched as `i`, and the level chooses how it runs. -/
theorem stepRunsTheDecodedInstruction : Obligations.StepRunsTheDecodedInstruction := by
  intro s i rest hp hq
  have hs : step s = runAt i (s.setRequests rest) := by
    rcases hq with ⟨w, hw, hq⟩ | hq
    · exact step_of_fetched hp hq hw
    · exact step_of_fetched hp hq rfl
  exact ⟨fun hl => hs.trans (runAt_operation i hl), fun hl => hs.trans (runAt_event i hl)⟩

/-! ## What a step changes -/

/-- A step leaves the configuration, and either changes neither registers, history nor requests, or takes the next
request, whose instruction is admitted and says the registers and the events that join the history. -/
theorem step_changes {s t : State} (h : step s = .next t) :
    t.cfg = s.cfg ∧
    ((t.registers = s.registers ∧ t.history = s.history ∧ t.requests = s.requests) ∨
      ∃ r rest i, s.requests = r :: rest ∧ fetch r = .ok i ∧ s.refusal (needOf s.cfg i) = none ∧
        t.registers = registersAfter i s ∧ t.history = s.history ++ eventsOf i s ∧ t.requests = rest) := by
  rcases step_cases h with ⟨ev, rest, hp, rfl⟩ | ⟨-, -, rfl⟩ | ⟨r, rest, i, -, hq, hf, hx⟩
  · exact ⟨by simp, .inl ⟨by simp [State.registers], by simp [State.history, hp], by simp⟩⟩
  · exact ⟨rfl, .inl ⟨rfl, rfl, rfl⟩⟩
  · obtain ⟨hc, hg, hh, ht⟩ := runAt_changes hx
    rw [registersAfter_setRequests] at hg
    rw [eventsOf_setRequests] at hh
    exact ⟨hc, .inr ⟨r, rest, i, hq, hf, (runAt_cases hx).1, hg, hh, ht⟩⟩

/-- Settles O38, from what a step changes. -/
theorem stepNeverWritesConfig : Obligations.StepNeverWritesConfig :=
  fun _ _ h => (step_changes h).1

/-! ## No line level decides -/

theorem exec_eq_refused {i : Instr} {s : State} {r : Refusal} (h : exec i s = .refused r) :
    s.refusal (needOf s.cfg i) = some r := by
  cases hn : s.refusal (needOf s.cfg i) with
  | none => rw [exec_of_none hn] at h; cases h
  | some r' => rw [exec_of_some hn] at h; injection h with h; rw [h]

theorem accept_eq_refused {i : Instr} {s : State} {r : Refusal} (h : accept i s = .refused r) :
    s.refusal (needOf s.cfg i) = some r := by
  cases hn : s.refusal (needOf s.cfg i) with
  | none => rw [accept_of_none hn] at h; cases h
  | some r' => rw [accept_of_some hn] at h; injection h with h; rw [h]

/-- From other lines an instruction does the same, and its events leave the lines where they leave those. -/
theorem exec_setLines {i : Instr} {s t : State} (l : Lines) (h : exec i s = .next t) :
    exec i (s.setLines l) = .next (t.setLines (l.replay (eventsOf i s))) := by
  obtain ⟨hn, rfl⟩ := exec_eq_next h
  rw [exec_of_none (s := s.setLines l) hn, registersAfter_setLines, eventsOf_setLines, ← emitAll_setLines]
  rfl

theorem accept_setLines {i : Instr} {s t : State} (l : Lines) (h : accept i s = .next t) :
    accept i (s.setLines l) = .next (t.setLines l) := by
  obtain ⟨hn, rfl⟩ := accept_eq_next h
  rw [accept_of_none (s := s.setLines l) hn, accepted_setLines]

theorem performHead_setLines (ev : Event) (rest : List Event) (l : Lines) (s : State) :
    performHead ev rest (s.setLines l) = (performHead ev rest s).setLines (l.apply ev) := by
  rw [performHead, performHead, ← complete_setLines, ← emit_setLines]
  rfl

theorem linesDoNotDecide_exec (i : Instr) : LinesDoNotDecide (exec i) := fun s l =>
  ⟨fun _ h => ⟨_, exec_setLines l h⟩, fun _ h => exec_of_some (s := s.setLines l) (exec_eq_refused (s := s) h)⟩

theorem linesDoNotDecide_accept (i : Instr) : LinesDoNotDecide (accept i) := fun s l =>
  ⟨fun _ h => ⟨_, accept_setLines l h⟩,
    fun _ h => accept_of_some (s := s.setLines l) (accept_eq_refused (s := s) h)⟩

theorem linesDoNotDecide_runAt (i : Instr) : LinesDoNotDecide (runAt i) := by
  intro s l
  cases hl : s.level with
  | operation =>
    rw [runAt_operation i hl, runAt_operation (s := s.setLines l) i hl]
    exact linesDoNotDecide_exec i s l
  | event =>
    rw [runAt_event i hl, runAt_event (s := s.setLines l) i hl]
    exact linesDoNotDecide_accept i s l

theorem linesDoNotDecide_step : LinesDoNotDecide step := by
  intro s l
  cases hp : s.pending with
  | cons ev rest =>
    rw [step_of_pending hp, step_of_pending (s := s.setLines l) hp]
    refine ⟨fun t h => ⟨l.apply ev, ?_⟩, fun r h => by cases h⟩
    injection h with h
    rw [← h, performHead_setLines]
  | nil =>
    cases hq : s.requests with
    | nil =>
      rw [step_of_noRequest hp hq, step_of_noRequest (s := s.setLines l) hp hq]
      refine ⟨fun t h => ⟨l, ?_⟩, fun r h => by cases h⟩
      injection h with h
      rw [h]
    | cons r rest =>
      cases hf : fetch r with
      | error e =>
        rw [step_of_rejected hp hq hf, step_of_rejected (s := s.setLines l) hp hq hf]
        exact ⟨fun t h => (by cases h), fun _ h => h⟩
      | ok i =>
        rw [step_of_fetched hp hq hf, step_of_fetched (s := s.setLines l) hp hq hf]
        exact linesDoNotDecide_runAt i (s.setRequests rest) l

/-- Settles O47: admission, registers and event lists do not read the lines, and the step runs only those. -/
theorem linesNeverDecide : Obligations.LinesNeverDecide :=
  ⟨linesDoNotDecide_exec, linesDoNotDecide_accept, linesDoNotDecide_step⟩

/-! ## Well-formed configurations -/

theorem config_wf_iff (cfg : Config) :
    cfg.wf = true ↔ 0 < cfg.rows.toNat ∧ 0 < cfg.columns.toNat ∧ cfg.rowBase.length = cfg.rows.toNat ∧
      ∀ base ∈ cfg.rowBase, base.toNat + cfg.columns.toNat - 1 ≤ 0x7F := by
  simp [Config.wf, and_assoc]

/-- Settles O34: the entries of a table of `rows` entries are those its row indices read. -/
theorem configWellFormedIsFourConditions : Obligations.ConfigWellFormedIsFourConditions := by
  intro cfg
  constructor
  · intro h
    obtain ⟨hr, hc, hl, hb⟩ := config_wf_cases h
    exact ⟨hr, hc, hl, fun r hlt => hb _ (rowBase_mem h hlt)⟩
  · rintro ⟨hr, hc, hl, hb⟩
    refine (config_wf_iff cfg).mpr ⟨hr, hc, hl, fun base hm => ?_⟩
    obtain ⟨r, hlt, rfl⟩ := List.mem_iff_getElem.mp hm
    have hget : cfg.rowBase.getD r 0 = cfg.rowBase[r] := List.getD_eq_getElem _ _ hlt
    have := hb r (by omega)
    rwa [hget] at this

end Sys2Proof.Machine
end

section
/-! PROOFS. The invariant of a block driven by its host (10_state.md rules R14, R16, R24; 20_memory.md rule R37): it holds
at construction and every step keeps it, clause by clause; and what it says between operations. -/

namespace Sys2Proof.Machine

/-- A block just constructed is safe, whatever its configuration. -/
theorem safe_construction (cfg : Config) : (State.construction cfg).Safe where
  lines := rfl
  contract := rfl
  cursor := fun h => by cases h
  host := rfl
  transfers := ⟨rfl, rfl, rfl⟩
  emits := rfl
  owes := fun _ => rfl

/-- Settles O42: reset is construction (R140). -/
theorem resetIsSafe : Obligations.ResetIsSafe := safe_construction _

/-! ## The clauses kept by every step, whoever makes the requests -/

theorem linesFollowTrace_step {s t : State} (hl : s.LinesFollowTrace) (h : step s = .next t) : t.LinesFollowTrace := by
  unfold State.LinesFollowTrace at *
  rcases step_cases h with ⟨ev, rest, -, rfl⟩ | ⟨-, -, rfl⟩ | ⟨r, rest, i, -, -, -, hx⟩
  · have hs : (s.setPending rest).lines = s.lines := rfl
    simp [hs, hl, replay_append]
  · exact hl
  · obtain ⟨-, ⟨-, rfl⟩ | ⟨-, rfl⟩⟩ := runAt_cases hx
    · rw [emitAll_lines, emitAll_trace, State.deliver_trace, setRegisters_trace, State.setRequests_trace,
        replay_append, ← hl]
      rfl
    · rw [accepted_lines, accepted_trace]
      exact hl

theorem contractKept_step {s t : State} (hk : s.ContractKept) (h : step s = .next t) : t.ContractKept := by
  unfold State.ContractKept at *
  obtain ⟨hc, ⟨-, hh, -⟩ | ⟨r, rest, i, -, -, -, -, hh, -⟩⟩ := step_changes h
  · rw [hc, hh, hk]
  · rw [hc, hh, nibbleRun_append_of_idle hk, nibbleRun_eventsOf]

theorem owesOnlyInFlight_complete (s : State) : (complete s).OwesOnlyInFlight := by
  intro hp
  rw [complete_returning, if_pos (by simpa using hp)]

theorem owesOnlyInFlight_step {s t : State} (ho : s.OwesOnlyInFlight) (h : step s = .next t) :
    t.OwesOnlyInFlight := by
  rcases step_cases h with ⟨ev, rest, -, rfl⟩ | ⟨-, -, rfl⟩ | ⟨r, rest, i, hp, -, -, hx⟩
  · exact owesOnlyInFlight_complete _
  · exact ho
  · obtain ⟨-, ⟨-, rfl⟩ | ⟨-, rfl⟩⟩ := runAt_cases hx
    · intro _
      simpa using ho hp
    · exact owesOnlyInFlight_complete _

/-! ## The clauses kept where a host makes the requests -/

/-- What a step of a safe block does to its registers and its history: it goes on with what it was doing, constructs
the display by INIT, or takes an operation. -/
inductive HostStep (s t : State) : Prop
  | goesOn (registers : t.registers = s.registers) (history : t.history = s.history)
  | constructs (may : s.MayConstruct) (registers : t.registers = ⟨0, 0, .ready⟩)
      (history : t.history = s.history ++ evInit s.cfg)
  | operates (i : Instr) (upward : i.upward = true) (notInit : i ≠ .init) (may : s.MayOperate)
      (registers : t.registers = registersAfter i s) (history : t.history = s.history ++ eventsOf i s)

theorem needOf_operation (cfg : Config) {i : Instr} (hu : i.upward = true) (hi : i ≠ .init) :
    needOf cfg i = .operation := by
  cases i with
  | init => exact absurd rfl hi
  | writeChar | locate | clear | newline => rfl
  | _ => cases hu

theorem hostStep_of_step {s t : State} (hd : s.HostDriven) (h : step s = .next t) : HostStep s t := by
  obtain ⟨-, ⟨hg, hh, -⟩ | ⟨r, rest, i, hq, hf, hn, hg, hh, -⟩⟩ := step_changes h
  · exact .goesOn hg hh
  · have hr : r.fromHost = true := List.all_eq_true.mp hd r (by simp [hq])
    have hu := fetch_upward hr hf
    by_cases hi : i = .init
    · subst hi
      obtain ⟨hp, hf, hw⟩ := refusal_construction_eq_none.mp hn
      exact .constructs ⟨hp, hf, hw⟩ hg hh
    · rw [needOf_operation s.cfg hu hi] at hn
      exact .operates i hu hi (mayOperate_of_admitted hn) hg hh

theorem history_of_uninit {s : State} (h : s.Safe) (hf : s.phase = .uninit) : s.history = [] := by
  have ht := h.transfers
  unfold State.WholeTransfers at ht
  rw [hf] at ht
  obtain ⟨htr, hp, -⟩ := ht
  rw [State.history, htr, hp, List.append_nil]

theorem wholeTransfers_of_uninit {s : State} (hl : s.LinesFollowTrace) (hf : s.phase = .uninit)
    (hh : s.history = []) : s.WholeTransfers := by
  obtain ⟨ht, hp⟩ := List.append_eq_nil_iff.mp hh
  unfold State.WholeTransfers State.LinesFollowTrace at *
  rw [hf]
  exact ⟨ht, hp, by rw [hl, ht, replay_nil]⟩

/-- INIT's bytes, after its four lone nibbles (R94 to R96). -/
theorem bytes_evInit (cfg : Config) :
    bytes (evInit cfg) = [(false, 0x28), (false, 0x0C), (false, 0x06), (false, 0x01)] := rfl

theorem hostDriven_step {s t : State} (hd : s.HostDriven) (h : step s = .next t) : t.HostDriven := by
  unfold State.HostDriven at *
  obtain ⟨-, ⟨-, -, hq⟩ | ⟨r, rest, i, hr, -, -, -, -, hq⟩⟩ := step_changes h
  · rw [hq, hd]
  · rw [hr, List.all_cons, Bool.and_eq_true] at hd
    rw [hq, hd.2]

theorem cursorInGeometry_step {s t : State} (h : s.Safe) (hs : step s = .next t) : t.CursorInGeometry := by
  have hcfg : t.cfg = s.cfg := (step_changes hs).1
  obtain ⟨hphase, hrow, hcolumn⟩ : t.phase = t.registers.phase ∧ t.cursorRow = t.registers.cursorRow ∧
      t.cursorColumn = t.registers.cursorColumn := ⟨rfl, rfl, rfl⟩
  unfold State.CursorInGeometry
  rw [hcfg, hphase, hrow, hcolumn]
  cases hostStep_of_step h.host hs with
  | goesOn hg _ => rw [hg]; exact h.cursor
  | constructs hm hg _ =>
    obtain ⟨hrows, hcolumns, -, -⟩ := config_wf_cases hm.config
    rw [hg]
    exact fun _ => ⟨hm.config, hrows, hcolumns⟩
  | operates i hu hi hm hg _ =>
    obtain ⟨hw, hr, hc⟩ := h.cursor hm.ready
    obtain ⟨hr', hc', -⟩ := cursor_registersAfter hm hu hi hr hc
    rw [hg]
    exact fun _ => ⟨hw, hr', hc'⟩

theorem wholeTransfers_step {s t : State} (h : s.Safe) (hs : step s = .next t) : t.WholeTransfers := by
  have hcfg : t.cfg = s.cfg := (step_changes hs).1
  have phase {g : Registers} (hg : t.registers = g) : t.phase = g.phase := congrArg Registers.phase hg
  cases hostStep_of_step h.host hs with
  | goesOn hg hh =>
    have hf : t.phase = s.phase := phase hg
    cases hp : s.phase with
    | uninit =>
      exact wholeTransfers_of_uninit (linesFollowTrace_step h.lines hs) (hf.trans hp)
        (by rw [hh, history_of_uninit h hp])
    | ready =>
      obtain ⟨es, he, hb⟩ := history_of_ready h hp
      exact wholeTransfers_of_ready (hf.trans hp) (by rw [hh, hcfg, he]) (by rw [hcfg, hb])
  | constructs hm hg hh =>
    exact wholeTransfers_of_ready (es := []) (phase hg)
      (by rw [hh, hcfg, history_of_uninit h hm.uninit, List.nil_append, List.append_nil]) rfl
  | operates i hu hi hm hg hh =>
    obtain ⟨-, hr, hc⟩ := h.cursor hm.ready
    obtain ⟨bs, hsend, -⟩ := sends_eventsOf hu hi hm hr
    obtain ⟨es, he, hb⟩ := history_of_ready h hm.ready
    obtain ⟨-, -, hready⟩ := cursor_registersAfter hm hu hi hr hc
    have hf : t.phase = .ready := (phase hg).trans hready
    exact wholeTransfers_of_ready (es := es ++ eventsOf i s) hf (by rw [hh, hcfg, he, List.append_assoc])
      (by rw [hcfg, byteRun_append_of_idle hb, hsend.run])

theorem emitsOnlyListed_step {s t : State} (h : s.Safe) (hs : step s = .next t) : t.EmitsOnlyListed := by
  have hcfg : t.cfg = s.cfg := (step_changes hs).1
  unfold State.EmitsOnlyListed
  rw [hcfg]
  cases hostStep_of_step h.host hs with
  | goesOn _ hh => rw [hh, h.emits]
  | constructs hm _ hh =>
    rw [hh, history_of_uninit h hm.uninit, List.nil_append, bytes_evInit]
    rfl
  | operates i hu hi hm _ hh =>
    obtain ⟨-, hr, -⟩ := h.cursor hm.ready
    obtain ⟨bs, hsend, hb⟩ := sends_eventsOf hu hi hm hr
    rw [hh, hsend.bytes_eq (whole_history h hm.ready), List.all_append, h.emits, hb]
    rfl

/-- Settles O43, clause by clause. -/
theorem stepKeepsSafe : Obligations.StepKeepsSafe := fun _ _ h hs =>
  { lines := linesFollowTrace_step h.lines hs
    contract := contractKept_step h.contract hs
    cursor := cursorInGeometry_step h hs
    host := hostDriven_step h.host hs
    transfers := wholeTransfers_step h hs
    emits := emitsOnlyListed_step h hs
    owes := owesOnlyInFlight_step h.owes hs }

/-- Settles O46: the trace is INIT's events and then whole bytes, and the lines are what it leaves. -/
theorem idleEnableHighAndNibblesPaired : Obligations.IdleEnableHighAndNibblesPaired := by
  intro s h hf hp
  obtain ⟨es, he, hb⟩ := history_of_ready h hf
  obtain ⟨whole, twelve⟩ := whole_of_byteRun hb
  rw [← he, State.history, hp, List.append_nil] at whole twelve
  have henable : s.e = (Lines.unwritten.replay s.trace).e := congrArg Lines.e h.lines
  exact ⟨henable.trans whole.enable, twelve, whole.even⟩

end Sys2Proof.Machine
end

section
/-! PROOFS. The display's pointer (10_state.md rule R23): LOCATE puts it at the cursor without a store, and so does INIT
run on a block after reset (rules R24, R97). -/

namespace Sys2Proof.Machine

theorem writesFrom_command (ptr : Option Addr) (b : Byte) : writesFrom ptr [(false, b)] = [] := rfl

/-- An operand of LOCATE on the geometry is kept by its u8 register (R110). -/
theorem ofInt_toNat_of_lt {z : Int} {bound : Byte} (h0 : 0 ≤ z) (h1 : z < bound.toNat) :
    (BitVec.ofInt 8 z).toNat = z.toNat := by
  have := bound.isLt
  have := toNat_ofInt_of_u8 h0 (by omega)
  omega

/-- Settles O48: LOCATE sends the one command that carries the address of the cursor it writes. -/
theorem locateSynchronises : Obligations.LocateSynchronises := by
  intro s column row h hm hg
  have hw := whole_trace h hm
  have hsend := sends_evLocate hg
  have ⟨hc0, hc, hr0, hr⟩ := hg
  have hle := ddramAddr_le hm.config (row := row.toNat) (column := column.toNat) (by omega) (by omega)
  refine ⟨_, exec_of_none (refusal_of_mayOperate hm), ?_, ?_⟩
  · simp only [State.InSync, emitAll_trace, emitAll_cfg, emitAll_cursorRow, emitAll_cursorColumn, State.deliver_trace,
      State.deliver_cfg, State.deliver_cursorRow, State.deliver_cursorColumn, setRegisters_trace, setRegisters_cfg,
      setRegisters_cursorRow, setRegisters_cursorColumn, registersAfter, if_pos hg, ofInt_toNat_of_lt hr0 hr,
      ofInt_toNat_of_lt hc0 hc]
    exact (hsend.pointer hw).trans (pointerFrom_addressCommand hle)
  · rw [emitAll_trace]
    exact (hsend.writes hw).trans (by rw [writesFrom_command, List.append_nil])

/-- INIT ends with CLEAR's command, which puts the display's pointer at address 0 (R96). -/
theorem ddramPointer_evInit (cfg : Config) : ddramPointer (evInit cfg) = some 0 := by
  rw [ddramPointer, bytes_evInit]
  rfl

/-- Settles O17: INIT is admitted at reset, its events are the whole trace, and the cursor it writes is cell (0, 0),
whose address in the 4 by 20 geometry is 0. -/
theorem resetThenInitIsInSync : Obligations.ResetThenInitIsInSync := by
  have admitted : State.reset.refusal .construction = none := rfl
  refine ⟨rfl, rfl, rfl, rfl, rfl, _, exec_of_none (i := .init) admitted, ?_, ?_, ?_, ?_⟩
  · rw [emitAll_phase]; rfl
  · rw [emitAll_lines]; exact replay_evInit _ _
  · rw [emitAll_trace]; exact length_evInit _
  · simp only [State.InSync, emitAll_trace, emitAll_cfg, emitAll_cursorRow, emitAll_cursorColumn]
    exact ddramPointer_evInit _

end Sys2Proof.Machine
end

section
/-! PROOFS. Addresses and their command byte (20_memory.md rules R31 to R34), and the store of a character at the cursor
(rule R43, 43_text_ops.md rules R100, R103). -/

namespace Sys2Proof.Machine

/-! ## The mapper and the command byte -/

/-- Settles O35: the base of a row on the geometry is an entry of the table, and the table's entries leave room for
`columns` cells (R25). -/
theorem mapperFitsSevenBits : Obligations.MapperFitsSevenBits :=
  fun _ _ _ hw hr hc => ⟨rfl, ddramAddr_le hw hr hc⟩

/-- Bit 7 is no bit of an address, so setting it adds 0x80 (R32). -/
theorem addressCommand_toNat {a : Nat} (h : a ≤ 0x7F) : (addressCommand a).toNat = 0x80 + a := by
  have disjoint : 2 ^ 7 * 1 + a = 2 ^ 7 * 1 ||| a := Nat.two_pow_add_eq_or_of_lt (by omega) 1
  calc (addressCommand a).toNat = 0x80 ||| a % 2 ^ 8 := rfl
    _ = 0x80 ||| a := by rw [Nat.mod_eq_of_lt (by omega)]
    _ = 0x80 + a := disjoint.symm

/-- Settles O36: the byte is 0x80 plus the address, so the address is what remains of it modulo 0x80. -/
theorem addressCommandCarriesAddress : Obligations.AddressCommandCarriesAddress := by
  intro a h
  obtain ⟨-, hbit7, -⟩ := addressCommand_fields h
  refine ⟨rfl, hbit7, ?_, addressCommand_toNat h⟩
  rw [BitVec.extractLsb'_toNat, addressCommand_toNat h, Nat.shiftRight_zero]
  omega

/-- The 4 by 20 table, row by row, and R34's column of command bytes: each is its row's base with bit 7 set. -/
theorem config4x20_rowBase {row : Nat} (h : row < 4) :
    (Config.config4x20.rowBase.getD row 0).toNat = [0x00, 0x40, 0x14, 0x54].getD row 0 ∧
      [0x80, 0xC0, 0x94, 0xD4].getD row 0 = 0x80 + [0x00, 0x40, 0x14, 0x54].getD row 0 := by
  have all : ∀ row : Fin 4,
      (Config.config4x20.rowBase.getD row 0).toNat = [0x00, 0x40, 0x14, 0x54].getD row 0 ∧
        [0x80, 0xC0, 0x94, 0xD4].getD row 0 = 0x80 + [0x00, 0x40, 0x14, 0x54].getD row 0 := by decide
  exact all ⟨row, h⟩

/-- Settles O37: the table's bases, and the command byte as 0x80 plus the address. -/
theorem addressMapOfFourByTwenty : Obligations.AddressMapOfFourByTwenty := by
  intro row column hr hc
  have hwf : Config.config4x20.wf = true := by decide
  obtain ⟨hbase, hcommand⟩ := config4x20_rowBase hr
  have haddr : ddramAddr Config.config4x20 row column = [0x00, 0x40, 0x14, 0x54].getD row 0 + column := by
    rw [ddramAddr, hbase]
  refine ⟨haddr, ?_⟩
  rw [addressCommand_toNat (ddramAddr_le hwf hr hc), haddr, hcommand, Nat.add_assoc]

/-! ## What the display sees of an instruction -/

/-- What an instruction that answers changes of the configuration, the registers and the trace. -/
theorem exec_changes {i : Instr} {s t : State} (h : exec i s = .next t) :
    t.cfg = s.cfg ∧ t.registers = registersAfter i s ∧ t.trace = s.trace ++ eventsOf i s := by
  obtain ⟨-, rfl⟩ := exec_eq_next h
  exact ⟨by simp, by simp [State.registers], by simp⟩

theorem ddramWrites_exec {i : Instr} {s t : State} {bs : List (Bit × Byte)} (h : exec i s = .next t)
    (hw : Whole s.trace) (hsend : Sends s.cfg (eventsOf i s) bs) :
    ddramWrites t.trace = ddramWrites s.trace ++ writesFrom (ddramPointer s.trace) bs := by
  obtain ⟨-, -, htrace⟩ := exec_changes h
  rw [htrace, hsend.writes hw]

/-- After an instruction the cursor is in sync exactly where the bytes it sends put the display's pointer at the cursor
it writes. -/
theorem inSync_exec_iff {i : Instr} {s t : State} {bs : List (Bit × Byte)} {g : Registers} (h : exec i s = .next t)
    (hw : Whole s.trace) (hsend : Sends s.cfg (eventsOf i s) bs) (hg : registersAfter i s = g) :
    t.InSync ↔ pointerFrom (ddramPointer s.trace) bs =
      some (BitVec.ofNat 7 (ddramAddr s.cfg g.cursorRow.toNat g.cursorColumn.toNat)) := by
  obtain ⟨hcfg, hregs, htrace⟩ := exec_changes h
  have hrow : t.cursorRow = g.cursorRow := congrArg Registers.cursorRow (hregs.trans hg)
  have hcolumn : t.cursorColumn = g.cursorColumn := congrArg Registers.cursorColumn (hregs.trans hg)
  rw [State.InSync, hcfg, hrow, hcolumn, htrace, hsend.pointer hw]

/-! ## The pointer inside a row -/

/-- Where the pointer after a store is known, it is the next address (R43). -/
theorem nextPointer_of_isSome {a : Addr} (h : (nextPointer a).isSome = true) : nextPointer a = some (a + 1) := by
  unfold nextPointer at h ⊢
  split at h
  · cases h
  · next hmid => rw [if_neg hmid]

/-- On a geometry whose rows keep to their DDRAM line, a store in any cell of a row but its last moves the pointer
to the next cell. -/
theorem nextPointer_ddramAddr {cfg : Config} (hw : cfg.wf = true) (hk : rowsKeepLine cfg = true) {row column : Nat}
    (hr : row < cfg.rows.toNat) (hc : column + 1 < cfg.columns.toNat) :
    nextPointer (BitVec.ofNat 7 (ddramAddr cfg row column)) =
      some (BitVec.ofNat 7 (ddramAddr cfg row (column + 1))) := by
  have hrow := List.all_eq_true.mp hk _ (rowBase_mem hw hr)
  have hcell := List.all_eq_true.mp hrow column (List.mem_range.mpr (by omega))
  have hnext : ddramAddr cfg row (column + 1) = ddramAddr cfg row column + 1 := rfl
  rw [hnext, BitVec.ofNat_add]
  exact nextPointer_of_isSome hcell

/-! ## WRITE_CHAR of a character

The data branch of R100: the byte is sent, and at the last column the block goes on to the start of the next row. -/

section WriteChar

variable {s : State} {c : Byte} (hcol : s.cursorColumn.toNat < s.cfg.columns.toNat)

include hcol

theorem registersAfter_writeChar_last (hl : s.cursorColumn.toNat + 1 = s.cfg.columns.toNat) :
    registersAfter (.writeChar c) s = ⟨nextRow s.cfg s.cursorRow, 0, s.phase⟩ :=
  if_pos (.inr ((wraps_iff hcol).mpr hl))

theorem registersAfter_writeChar_inside (hc : c ≠ s.cfg.newlineChar)
    (hl : s.cursorColumn.toNat + 1 ≠ s.cfg.columns.toNat) :
    registersAfter (.writeChar c) s = ⟨s.cursorRow, s.cursorColumn + 1, s.phase⟩ :=
  if_neg (not_or.mpr ⟨hc, mt (wraps_iff hcol).mp hl⟩)

theorem sends_writeChar_last (hw : s.cfg.wf = true) (hr : s.cursorRow.toNat < s.cfg.rows.toNat)
    (hc : c ≠ s.cfg.newlineChar) (hl : s.cursorColumn.toNat + 1 = s.cfg.columns.toNat) :
    Sends s.cfg (eventsOf (.writeChar c) s)
      [(true, c), (false, addressCommand (ddramAddr s.cfg (nextRow s.cfg s.cursorRow).toNat 0))] := by
  rw [eventsOf, if_neg hc, if_pos ((wraps_iff hcol).mpr hl), nextRow_toNat _ _ hr]
  exact (sends_evData _ _).append (sends_evNewline hw hr)

theorem sends_writeChar_inside (hc : c ≠ s.cfg.newlineChar) (hl : s.cursorColumn.toNat + 1 ≠ s.cfg.columns.toNat) :
    Sends s.cfg (eventsOf (.writeChar c) s) [(true, c)] := by
  rw [eventsOf, if_neg hc, if_neg (mt (wraps_iff hcol).mp hl)]
  exact sends_evData _ _

end WriteChar

/-- Settles O49: the byte is stored where the pointer stands; at the last column the command that follows puts the
pointer at the start of the next row, wherever it was, and inside a row the store itself moves the pointer with the cursor. -/
theorem writeCharStoresAtCursor : Obligations.WriteCharStoresAtCursor := by
  intro s c h hm hc
  obtain ⟨hwf, hr, hcol⟩ := h.cursor hm.ready
  have hw := whole_trace h hm
  obtain ⟨t, ht⟩ : ∃ t, exec (.writeChar c) s = .next t := ⟨_, exec_of_none (refusal_of_mayOperate hm)⟩
  refine ⟨t, ht, ?_⟩
  by_cases hl : s.cursorColumn.toNat + 1 = s.cfg.columns.toNat
  · have hsend := sends_writeChar_last hcol hwf hr hc hl
    have hle := ddramAddr_le hwf (nextRow_lt _ _ hr) (config_wf_cases hwf).2.1
    have hsync : t.InSync :=
      (inSync_exec_iff ht hw hsend (registersAfter_writeChar_last hcol hl)).mpr (pointerFrom_addressCommand hle)
    exact ⟨fun hs => by rw [ddramWrites_exec ht hw hsend, hs]; rfl, fun _ => hsync, fun _ _ => hsync⟩
  · have hsend := sends_writeChar_inside hcol hc hl
    refine ⟨fun hs => by rw [ddramWrites_exec ht hw hsend, hs]; rfl, fun hl' => absurd hl' hl, fun hs hk => ?_⟩
    rw [inSync_exec_iff ht hw hsend (registersAfter_writeChar_inside hcol hc hl), hs, succ_toNat hcol]
    exact nextPointer_ddramAddr hwf hk hr (by omega)

end Sys2Proof.Machine
end

section
/-! PROOFS. The encoding (30_encoding.md): the decoder against the rows of the opcode table (rules R50 to R61), and the
response of each request (rule R58). -/

namespace Sys2Proof

/-! ## The rows of the opcode table

Every proof about the table goes through `FollowsTable`: of one word, the rows that accept it are the row of the
instruction it decodes to, if it decodes. -/

/-- The row of the instruction a word decodes to, if it decodes. -/
def decodedRow (w : PortWord) : Option OpRow := (decode w).toOption.map Instr.row

/-- The table and the decoder agree on a word. -/
def FollowsTable (w : PortWord) : Prop := ∀ r ∈ opcodeTable, r.accepts w = true ↔ decodedRow w = some r

theorem decodedRow_of_ok {w : PortWord} {i : Instr} (h : decode w = .ok i) : decodedRow w = some i.row := by
  rw [decodedRow, h]; rfl

theorem decodedRow_of_error {w : PortWord} {e : Reject} (h : decode w = .error e) : decodedRow w = none := by
  rw [decodedRow, h]; rfl

theorem accepts_iff {r : OpRow} {w : PortWord} :
    r.accepts w = true ↔ w.format = r.format ∧ w.bits &&& r.mask = r.pattern := by
  simp [OpRow.accepts]

/-- Operands play no part in an instruction's row. -/
theorem row_mem_opcodeTable (i : Instr) : i.row ∈ opcodeTable := by
  cases i <;> simp [opcodeTable, Instr.row]

/-! ## Request words: the op field decides, whatever the operands -/

theorem mask_of_req19 : ∀ r ∈ opcodeTable, r.format = .req19 → r.mask = 0x70000 := by decide

theorem accepts_reqWord {r : OpRow} (hr : r ∈ opcodeTable) (op : BitVec 3) (a b : Byte) :
    r.accepts (.req19 (reqWord op a b)) = true ↔ r.accepts (.req19 (reqWord op 0 0)) = true := by
  rw [accepts_iff, accepts_iff]
  refine and_congr_right fun hf => ?_
  simp only [PortWord.bits, mask_of_req19 r hr hf.symm, reqWord_mask]

theorem decodedRow_reqWord (op : BitVec 3) (a b : Byte) :
    decodedRow (.req19 (reqWord op a b)) = decodedRow (.req19 (reqWord op 0 0)) := by
  simp only [decodedRow, decode, decodeReq, reqOp_reqWord]
  split <;> rfl

theorem followsTable_reqWord_zero : ∀ op : BitVec 3, FollowsTable (.req19 (reqWord op 0 0)) := by
  unfold FollowsTable; decide

theorem followsTable_req19 (w : BitVec 19) : FollowsTable (.req19 w) := by
  intro r hr
  rw [← reqWord_fields w, accepts_reqWord hr, decodedRow_reqWord]
  exact followsTable_reqWord_zero _ r hr

/-! ## Command bytes: four fixed bytes, and the bytes with bit 7 set -/

theorem byte_and_fullMask (b : Byte) : b.toNat &&& 0xFF = b.toNat :=
  Nat.and_two_pow_sub_one_of_lt_two_pow b.isLt

/-- The mask of SET_DDRAM_ADDR's row keeps bit 7 alone. -/
theorem byte_and_topMask (b : Byte) : b.toNat &&& 0x80 = 0x80 ↔ b.getLsbD 7 = true := by
  rw [show (0x80 : Nat) = 2 ^ 7 from rfl, Nat.and_two_pow, BitVec.getLsbD]
  cases b.toNat.testBit 7 <;> simp

/-- The command bytes of R54 that stand in the table on their own. -/
def fixedCommands : List Byte := [0x01, 0x06, 0x0C, 0x28]

theorem followsTable_fixedCommand : ∀ b ∈ fixedCommands, FollowsTable (.cmd8 b) := by
  unfold FollowsTable; decide

theorem decodedRow_otherCommand {b : Byte} (hb : b ∉ fixedCommands) :
    decodedRow (.cmd8 b) = if b.getLsbD 7 then some (Instr.setDdramAddr 0).row else none := by
  obtain ⟨h01, h06, h0C, h28⟩ : b ≠ 0x01 ∧ b ≠ 0x06 ∧ b ≠ 0x0C ∧ b ≠ 0x28 := by simpa [fixedCommands] using hb
  simp only [decodedRow, decode, decodeCmd, if_neg h01, if_neg h06, if_neg h0C, if_neg h28]
  split <;> rfl

theorem cmd8_row_cases : ∀ r ∈ opcodeTable, r.format = .cmd8 →
    r = (Instr.setDdramAddr 0).row ∨ ∃ c ∈ fixedCommands, r = ⟨.cmd8, c.toNat, 0xFF⟩ := by decide

theorem accepts_otherCommand {r : OpRow} (hr : r ∈ opcodeTable) {b : Byte} (hb : b ∉ fixedCommands) :
    r.accepts (.cmd8 b) = true ↔ b.getLsbD 7 = true ∧ r = (Instr.setDdramAddr 0).row := by
  rw [accepts_iff]
  constructor
  · rintro ⟨hf, hbits⟩
    rcases cmd8_row_cases r hr hf.symm with rfl | ⟨c, hc, rfl⟩
    · exact ⟨(byte_and_topMask b).mp hbits, rfl⟩
    · have : b = c := BitVec.eq_of_toNat_eq ((byte_and_fullMask b).symm.trans hbits)
      exact absurd (this ▸ hc) hb
  · rintro ⟨htop, rfl⟩
    exact ⟨rfl, (byte_and_topMask b).mpr htop⟩

theorem followsTable_cmd8 (b : Byte) : FollowsTable (.cmd8 b) := by
  by_cases hb : b ∈ fixedCommands
  · exact followsTable_fixedCommand b hb
  · intro r hr
    rw [accepts_otherCommand hr hb, decodedRow_otherCommand hb, Option.ite_none_right_eq_some, Option.some_inj,
      eq_comm (a := r)]

/-! ## Nibbles and data bytes -/

theorem followsTable_nib4 : ∀ n : Nibble, FollowsTable (.nib4 n) := by
  unfold FollowsTable; decide

theorem data8_row : ∀ r ∈ opcodeTable, r.format = .data8 ↔ r = (Instr.writeData 0).row := by decide

/-- Format DATA8 has one row, and its mask is empty. -/
theorem followsTable_data8 (d : Byte) : FollowsTable (.data8 d) := by
  intro r hr
  rw [accepts_iff, decodedRow_of_ok (i := .writeData d) rfl, Option.some_inj, eq_comm (b := r)]
  refine ⟨fun ⟨hf, _⟩ => (data8_row r hr).mp hf.symm, ?_⟩
  rintro rfl
  exact ⟨rfl, Nat.and_zero _⟩

/-! ## The whole table -/

theorem followsTable : ∀ w : PortWord, FollowsTable w
  | .req19 w => followsTable_req19 w
  | .cmd8 b => followsTable_cmd8 b
  | .nib4 n => followsTable_nib4 n
  | .data8 d => followsTable_data8 d

/-- Settles O2: the rows that accept a word are the decoded instruction's row, in each of the four formats. -/
theorem decodeFollowsOpcodeTable : Obligations.DecodeFollowsOpcodeTable := by
  refine fun w => ⟨fun i hi => ⟨row_mem_opcodeTable i, fun r hr => ?_⟩, fun e he r hr => ?_⟩
  · rw [followsTable w r hr, decodedRow_of_ok hi, Option.some_inj, eq_comm]
  · rw [Bool.eq_false_iff, ne_eq, followsTable w r hr, decodedRow_of_error he]
    exact Option.some_ne_none r ∘ Eq.symm

end Sys2Proof

namespace Sys2Proof.Machine

/-! ## The response of a request -/

/-- After INIT an operation completes, and its response is the instruction's result. -/
theorem exec_responds {s : State} (h : s.MayOperate) {i : Instr} (hn : needOf s.cfg i = .operation) {r : Response}
    (hr : resultOf s.cfg i = some r) : ∃ t, exec i s = .next t ∧ t.response = r := by
  refine ⟨_, exec_of_none (hn ▸ refusal_of_mayOperate h), ?_⟩
  rw [emitAll_response, State.deliver_response, hr, Option.getD_some]

/-- Settles O33: each operation's result, and for LOCATE its error bit on either side of the range test. -/
theorem responsesOfOperations : Obligations.ResponsesOfOperations := by
  refine fun s h => ⟨fun c => ?_, fun column row => ?_, ?_, ?_⟩
  · obtain ⟨t, ht, hr⟩ := exec_responds h (i := .writeChar c) rfl rfl
    exact ⟨t, ht, congrArg Response.retByte hr, congrArg Response.errBit hr⟩
  · obtain ⟨t, ht, hr⟩ := exec_responds h (i := .locate column row) rfl rfl
    refine ⟨t, ht, ?_⟩
    by_cases hg : InGeometry s.cfg column row
    · rw [hr, if_pos hg]
      exact ⟨rfl, iff_of_false (by decide) (not_not_intro hg), iff_of_true rfl hg⟩
    · rw [hr, if_neg hg]
      exact ⟨rfl, iff_of_true rfl hg, iff_of_false (by decide) hg⟩
  · obtain ⟨t, ht, hr⟩ := exec_responds h (i := .clear) rfl rfl
    exact ⟨t, ht, congrArg Response.retByte hr, congrArg Response.errBit hr⟩
  · obtain ⟨t, ht, hr⟩ := exec_responds h (i := .newline) rfl rfl
    exact ⟨t, ht, congrArg Response.retByte hr, congrArg Response.errBit hr⟩

end Sys2Proof.Machine
end

section
/-! PROOFS. The transfer primitives (40_transfer_primitives.md rules R70 to R77): the next state of each, the nibbles of
a byte, and the time of a trace (rule R70). -/

namespace Sys2Proof.Machine

/-! ## Lines, nibbles and bytes -/

/-- Settles O9: each write is one event. -/
theorem lineWritesDriveOneLine : Obligations.LineWritesDriveOneLine := fun _ _ _ => ⟨rfl, rfl, rfl⟩

/-- Only `v[3:0]` is used of a number (R74). -/
theorem lowNibble_mod (v : Nat) : lowNibble (v % 16) = lowNibble v :=
  BitVec.eq_of_toNat_eq (Nat.mod_mod v 16)

theorem lowNibble_toNat (b : Byte) : lowNibble b.toNat = b.extractLsb' 0 4 := rfl

theorem lowNibble_highPart (b : Byte) : lowNibble (highPart b) = b.extractLsb' 4 4 := rfl

/-- The ten events of a byte, with its nibbles as the byte's own bits (R75). -/
theorem evByte_eq (cfg : Config) (b : Byte) : evByte cfg b =
    [.setDB (b.extractLsb' 4 4), .wait cfg.tPulse, .setE false, .wait cfg.tPulse, .setE true,
     .setDB (b.extractLsb' 0 4), .wait cfg.tPulse, .setE false, .wait cfg.tPulse, .setE true] := rfl

/-- Settles O10: the frame's events, with the number reduced to its low four bits. -/
theorem nibbleFrameIsFiveEvents : Obligations.NibbleFrameIsFiveEvents := by
  refine fun v s => ⟨?_, minDuration_evNibble _ _⟩
  have hv : BitVec.ofNat 4 (v % 16) = lowNibble v := lowNibble_mod v
  rw [writeNibble_eq, emitAll_eq, replay_evNibble, hv]
  rfl

/-- Settles O11: a byte is its event list, whose last frame leaves the lines. -/
theorem byteIsHighNibbleThenLow : Obligations.ByteIsHighNibbleThenLow := by
  refine fun b s => ⟨?_, minDuration_evByte _ _⟩
  rw [writeByte_eq, emitAll_eq, replay_evByte, evByte_eq, lowNibble_toNat]
  rfl

/-- Settles O12: one register-select write before the byte's events, whatever the level was. -/
theorem sendsSelectRegisterThenByte : Obligations.SendsSelectRegisterThenByte := by
  intro b s
  constructor
  · rw [sendCommand_eq, emitAll_evCommand, evCommand, evByte_eq, lowNibble_toNat]
  · rw [sendData_eq, emitAll_evData, evData, evByte_eq, lowNibble_toNat]

/-! ## Time -/

/-- Waits take at least the sum of their bounds, whatever their excess (U6). -/
theorem sum_le_elapsedFrom (k : Nat) (ds : List Nat) : ds.sum ≤ elapsedFrom k ds := by
  induction ds generalizing k with
  | nil => exact Nat.le_refl 0
  | cons d ds ih =>
    have := ih (k + 1)
    rw [List.sum_cons, elapsedFrom]
    omega

/-- One more wait adds its bound and its excess. -/
theorem elapsed_append_wait (trace : List Event) (d : Nat) :
    elapsed (trace ++ [.wait d]) = elapsed trace + (d + Config.waitExcess (waits trace).length) := by
  rw [elapsed, waits_append, elapsedFrom_append, Nat.zero_add]
  rfl

/-- Settles O52, by induction over the waits; the excess is nowhere constrained. -/
theorem elapsedAtLeastMinimum : Obligations.ElapsedAtLeastMinimum := by
  refine fun s => ⟨sum_le_elapsedFrom 0 _, fun d => ?_⟩
  rw [elapsed_append_wait]
  omega

end Sys2Proof.Machine
end

section
/-! PROOFS. The event level against the operation level (40_transfer_primitives.md rules R78, R79): what one event does,
when an accepted instruction returns, and the runs of the two levels. -/

namespace Sys2Proof.Machine

/-! ## A step with an operation in flight -/

/-- The head of `pending` is emitted, and the last event returns the result owed. -/
theorem performHead_eq (ev : Event) (rest : List Event) (s : State) :
    performHead ev rest s = { (s.setPending rest).emit ev with
      response := if rest = [] then s.returning.getD s.response else s.response,
      returning := if rest = [] then none else s.returning } := by
  simp [performHead, complete_eq]

/-- Settles O7: one clause per event, and the idle stutter. -/
theorem stepPerformsNextEventOrIdles : Obligations.StepPerformsNextEventOrIdles := by
  refine fun s => ⟨fun b rest hp => ?_, fun b rest hp => ?_, fun n rest hp => ?_, fun d rest hp => ?_,
    step_of_noRequest⟩ <;>
  · rw [step_of_pending hp, performHead_eq]
    rfl

/-- Settles O57: the invariant's clause about the result owed is kept on its own. -/
theorem stepOwesResultOnlyInFlight : Obligations.StepOwesResultOnlyInFlight :=
  fun _ _ => owesOnlyInFlight_step

/-! ## Nothing is cancelled, reordered or elided -/

theorem trace_prefix_runAt {i : Instr} {s t : State} (h : runAt i s = .next t) : s.trace <+: t.trace := by
  obtain ⟨-, ⟨-, rfl⟩ | ⟨-, rfl⟩⟩ := runAt_cases h
  · exact ⟨eventsOf i s, by simp⟩
  · rw [accepted_trace]

theorem trace_prefix_step {s t : State} (h : step s = .next t) : s.trace <+: t.trace := by
  rcases step_cases h with ⟨ev, rest, -, rfl⟩ | ⟨-, -, rfl⟩ | ⟨r, rest, i, -, -, -, hx⟩
  · exact ⟨[ev], by simp⟩
  · exact List.prefix_rfl
  · exact trace_prefix_runAt (s := s.setRequests rest) hx

theorem history_prefix_step {s t : State} (h : step s = .next t) : s.history <+: t.history := by
  obtain ⟨-, ⟨-, hh, -⟩ | ⟨-, -, i, -, -, -, -, hh, -⟩⟩ := step_changes h
  · rw [hh]
  · exact ⟨eventsOf i s, hh.symm⟩

/-- Settles O41: an event in flight moves from the head of `pending` to the end of the trace. -/
theorem stepOnlyAppendsEvents : Obligations.StepOnlyAppendsEvents := by
  refine fun s t h => ⟨trace_prefix_step h, history_prefix_step h, fun hne => ?_⟩
  obtain ⟨ev, rest, hp⟩ := List.exists_cons_of_ne_nil hne
  rw [step_of_pending hp] at h
  injection h with h
  subst h
  simp [State.history, performHead, hp]

/-! ## An accepted instruction, run to its end -/

/-- While events are pending, each step takes one of them and gives the host no result. -/
theorem steps_inFlight {k : Nat} {s u : State} (hk : k < s.pending.length) (h : steps k s = .next u) :
    u.response = s.response ∧ u.pending = s.pending.drop k := by
  induction k generalizing s with
  | zero =>
    rw [steps_zero] at h
    injection h with h
    subst h
    exact ⟨rfl, rfl⟩
  | succ k ih =>
    obtain ⟨ev, rest, hp⟩ := List.exists_cons_of_length_pos (Nat.zero_lt_of_lt hk)
    have hrest : k < rest.length := by simpa [hp] using hk
    have hne : rest ≠ [] := List.ne_nil_of_length_pos (Nat.zero_lt_of_lt hrest)
    rw [steps_of_next (step_of_pending hp)] at h
    obtain ⟨hresponse, hpending⟩ := ih (by simpa [performHead] using hrest) h
    rw [hresponse, hpending, hp]
    simp [performHead_eq, hne]

/-- An accepted instruction is one the operation level runs, and its events, performed one a step, end in the state that
level reaches, with no result owed. -/
theorem exec_of_accept {i : Instr} {s t : State} (h : accept i s = .next t) :
    ∃ u, exec i s = .next u ∧ steps t.pending.length t = .next (u.setReturning none) ∧
      u.returning = s.returning ∧ u.pending = [] := by
  obtain ⟨hn, rfl⟩ := accept_eq_next h
  have hp := pending_of_admitted hn
  refine ⟨_, exec_of_none hn, ?_, by simp, by simpa using hp⟩
  rw [accepted_pending, steps_accepted, State.setPending_self _ _ (by simpa using hp)]

/-- Settles O39: both levels refuse by the same test, and an accepted instruction performs the same events. -/
theorem eventLevelRefinesOperationLevel : Obligations.EventLevelRefinesOperationLevel := by
  refine fun i s => ⟨fun t h => ?_, fun r => ⟨fun h => ?_, fun h => ?_⟩⟩
  · obtain ⟨u, hu, hrun, howed, -⟩ := exec_of_accept h
    exact ⟨u, hu, hrun, fun hs => State.setReturning_self u none (howed.trans hs)⟩
  · exact exec_of_some (accept_eq_refused h)
  · exact accept_of_some (exec_eq_refused h)

/-- Settles O56: no result before the last event, and the operation level's with it. -/
theorem resultReturnsAtCompletion : Obligations.ResultReturnsAtCompletion := by
  refine fun i s t h => ⟨fun k u hk hrun => ?_, ?_⟩
  · obtain ⟨hresponse, hpending⟩ := steps_inFlight hk hrun
    obtain ⟨-, rfl⟩ := accept_eq_next h
    rw [accepted_pending] at hk hpending
    obtain ⟨hkept, -⟩ := accepted_response (List.ne_nil_of_length_pos (Nat.zero_lt_of_lt hk))
    refine ⟨hresponse.trans hkept, ?_⟩
    rw [hpending, ne_eq, List.drop_eq_nil_iff]
    omega
  · obtain ⟨v, hv, hrun, -, hpending⟩ := exec_of_accept h
    exact ⟨v.setReturning none, v, hrun, hv, rfl, rfl, hpending⟩

/-! ## Runs of the two levels -/

/-- What the operation level runs, the event level accepts, and performs to the same state with no result owed. -/
theorem steps_of_exec {i : Instr} {s t : State} (hl : s.level = .event) (h : exec i s = .next t) :
    ∃ u, runAt i s = .next u ∧ steps u.pending.length u = .next (t.setReturning none) := by
  have ha := accept_of_none (exec_eq_next h).1
  obtain ⟨v, hv, hrun, -, -⟩ := exec_of_accept ha
  rw [h] at hv
  injection hv with hv
  exact ⟨_, (runAt_event i hl).trans ha, hv ▸ hrun⟩

/-- A step of an idle block at the operation level leaves it idle at that level. -/
theorem step_idle_operation {s t : State} (hp : s.pending = []) (hl : s.level = .operation) (h : step s = .next t) :
    t.pending = [] ∧ t.level = .operation := by
  rcases step_cases h with ⟨ev, rest, hp', -⟩ | ⟨-, -, rfl⟩ | ⟨r, rest, i, -, -, -, hx⟩
  · rw [hp] at hp'; cases hp'
  · exact ⟨hp, hl⟩
  · rw [runAt_operation (s := s.setRequests rest) i hl] at hx
    obtain ⟨-, rfl⟩ := exec_eq_next hx
    exact ⟨by simpa using hp, by simpa using hl⟩

/-- A step of an idle block at the operation level stutters, or the event level runs its request to the same state
but for the level and a result owed. -/
theorem steps_event_of_step {s t : State} (hp : s.pending = []) (hl : s.level = .operation) (h : step s = .next t) :
    t = s ∨ ∃ m, steps m (s.setLevel .event) = .next ((t.setReturning none).setLevel .event) := by
  rcases step_cases h with ⟨ev, rest, hp', -⟩ | ⟨-, -, rfl⟩ | ⟨r, rest, i, -, hq, hf, hx⟩
  · rw [hp] at hp'; cases hp'
  · exact .inl rfl
  · rw [runAt_operation (s := s.setRequests rest) i hl] at hx
    obtain ⟨u, hu, hrun⟩ := steps_of_exec rfl (exec_setLevel .event hx)
    have hs : step (s.setLevel .event) = .next u := (step_of_fetched (s := s.setLevel .event) hp hq hf).trans hu
    exact .inr ⟨u.pending.length + 1, (steps_of_next hs _).trans hrun⟩

/-- Settles O40, by induction over the run: a stutter is matched by no step, and any other step by the events of its
request, after which nothing is owed. -/
theorem eventLevelRunsMatchOperationLevel : Obligations.EventLevelRunsMatchOperationLevel := by
  intro n
  induction n with
  | zero =>
    intro s t _ _ h
    rw [steps_zero] at h
    injection h with h
    subst h
    exact ⟨0, _, rfl, rfl, fun _ => rfl⟩
  | succ n ih =>
    intro s t hp hl h
    obtain ⟨s', hs, hrest⟩ := steps_succ_cases h
    obtain ⟨hp', hl'⟩ := step_idle_operation hp hl hs
    rcases steps_event_of_step hp hl hs with rfl | ⟨m, hm⟩
    · exact ih _ _ hp hl hrest
    · obtain ⟨hclear, -⟩ := steps_setReturning none hp' hl' hrest
      obtain ⟨-, howed⟩ := steps_setReturning none hp hl h
      obtain ⟨m', u, hm', -, hu⟩ := ih (s'.setReturning none) _ hp' hl' hclear
      obtain rfl := hu rfl
      refine ⟨m + m', _, (steps_add m' hm).trans hm', rfl, fun hnone => ?_⟩
      rw [State.setReturning_self t none (howed.trans hnone)]

end Sys2Proof.Machine
end

section
/-! PROOFS. The emitted items as steps of their own (41_display_commands.md rules R80 to R87): which the block emits,
what it answers to one it never emits (30_encoding.md rule R59), and the next state of each. -/

namespace Sys2Proof.Machine

/-! ## What an item does -/

/-- An item touches neither the cursor nor the phase, and returns nothing. -/
theorem item_keeps_registers_returns_none {i : Instr} {s : State} {legal : Bool} (hn : needOf s.cfg i = .item legal) :
    registersAfter i s = s.registers ∧ resultOf s.cfg i = none := by
  cases i with
  | init | writeChar | locate | clear | newline => cases hn
  | clearDisplay | entryModeSet | displayControl | functionSet | setDdramAddr | initNibble3 | initNibble2 | writeData =>
    exact ⟨rfl, rfl⟩

/-- On an idle block an item the block emits performs its event list, and that is all. -/
theorem exec_legalItem {i : Instr} {s : State} (hp : s.pending = []) (hn : needOf s.cfg i = .item true) :
    exec i s = .next (emitAll (eventsOf i s) s) := by
  have hadmitted : s.refusal (needOf s.cfg i) = none := hn ▸ refusal_item_eq_none.mpr ⟨hp, rfl⟩
  obtain ⟨hregisters, hresult⟩ := item_keeps_registers_returns_none hn
  rw [exec_of_none hadmitted, hregisters, hresult, setRegisters_self, State.deliver_none]

/-- On an idle block an item the block never emits is refused by name (R59). -/
theorem exec_illegalItem {i : Instr} {s : State} (hp : s.pending = []) (hn : needOf s.cfg i = .item false) :
    exec i s = .refused .neverEmitted :=
  exec_of_some (by rw [hn]; simp [State.refusal, hp])

/-- An item that is one command byte. -/
theorem exec_commandItem {i : Instr} {s : State} {b : Byte} (hp : s.pending = []) (hn : needOf s.cfg i = .item true)
    (he : eventsOf i s = evCommand s.cfg b) :
    exec i s = .next { s with
      rs := some false, e := some true, db := some (lowNibble b.toNat), trace := s.trace ++ evCommand s.cfg b } := by
  rw [exec_legalItem hp hn, he, emitAll_evCommand]

/-! ## SET_DDRAM_ADDR and WRITE_DATA -/

/-- The image of the mapper, cell by cell: an entry of the table is the base of some row (R31). -/
theorem mapsTo_iff {cfg : Config} {a : Addr} : cfg.mapsTo a = true ↔
    ∃ row column, row < cfg.rowBase.length ∧ column < cfg.columns.toNat ∧ ddramAddr cfg row column = a.toNat := by
  rw [Config.mapsTo, List.any_eq_true]
  constructor
  · rintro ⟨base, hmem, hrange⟩
    obtain ⟨row, hrow, rfl⟩ := List.mem_iff_getElem.mp hmem
    obtain ⟨hle, hlt⟩ := of_decide_eq_true hrange
    refine ⟨row, a.toNat - cfg.rowBase[row].toNat, hrow, by omega, ?_⟩
    rw [ddramAddr, List.getD_eq_getElem _ _ hrow]
    omega
  · rintro ⟨row, column, hrow, hcolumn, haddr⟩
    rw [ddramAddr, List.getD_eq_getElem _ _ hrow] at haddr
    exact ⟨_, List.getElem_mem hrow, decide_eq_true (by omega)⟩

/-- Only the low four bits of a word reach the data lines. -/
theorem lowNibble_toNat_eq_setWidth {n : Nat} (v : BitVec n) : lowNibble v.toNat = v.setWidth 4 :=
  BitVec.ofNat_toNat 4 v

theorem addressCommand_toNat_eq_setWidth (a : Addr) : addressCommand a.toNat = 0x80#8 ||| a.setWidth 8 := by
  rw [addressCommand, BitVec.ofNat_toNat]

/-- Settles O29: an address is emitted exactly where it is in the mapper's image, which is the cells' addresses. -/
theorem setDdramAddrSendsItsAddress : Obligations.SetDdramAddrSendsItsAddress := by
  refine fun s a hp => ⟨fun row column hrow hcolumn haddr => ?_, fun hno => ?_⟩
  · have hmaps : s.cfg.mapsTo a = true := mapsTo_iff.mpr ⟨row, column, hrow, hcolumn, haddr⟩
    have hnibble : lowNibble (addressCommand a.toNat).toNat = a.setWidth 4 :=
      (lowNibble_addressCommand (by omega)).trans (lowNibble_toNat_eq_setWidth a)
    rw [exec_commandItem (i := .setDdramAddr a) hp (congrArg Need.item hmaps) rfl, hnibble,
      addressCommand_toNat_eq_setWidth]
  · have hmaps : s.cfg.mapsTo a = false := by
      rw [Bool.eq_false_iff, ne_eq, mapsTo_iff]
      rintro ⟨row, column, hrow, hcolumn, haddr⟩
      exact hno row column hrow hcolumn haddr
    exact exec_illegalItem hp (congrArg Need.item hmaps)

/-- Settles O31: `NEWLINE_CHAR` is the one byte that is not emitted as data. -/
theorem writeDataSendsItsByte : Obligations.WriteDataSendsItsByte := by
  refine fun s d hp => ⟨fun hd => ?_, fun hd => ?_⟩
  · rw [exec_legalItem (i := .writeData d) hp (congrArg Need.item (decide_eq_true hd)), eventsOf, emitAll_evData,
      lowNibble_toNat_eq_setWidth]
  · exact exec_illegalItem hp (congrArg Need.item (decide_eq_false (not_not_intro hd)))

/-! ## The fixed items -/

/-- Settles O28: the long wait belongs to the event list of 0x01 only. -/
theorem commandItemsSendTheirByte : Obligations.CommandItemsSendTheirByte := by
  refine fun s hp => ⟨?_, exec_commandItem (b := 0x06) hp rfl rfl, exec_commandItem (b := 0x0C) hp rfl rfl,
    exec_commandItem (b := 0x28) hp rfl rfl⟩
  rw [exec_legalItem hp rfl, eventsOf, emitAll_eq, replay_evClear, evClear, List.append_assoc]

/-- Settles O30: the frame leaves register-select as it was, and the long wait follows 0x3 only. -/
theorem initNibblesAreLoneFrames : Obligations.InitNibblesAreLoneFrames := by
  refine fun s hp => ⟨?_, ?_⟩
  · rw [exec_legalItem hp rfl, eventsOf, emitAll_eq, evInitNibble3, replay_append, replay_evNibble]
    rfl
  · rw [exec_legalItem hp rfl, eventsOf, emitAll_eq, replay_evNibble]
    rfl

end Sys2Proof.Machine
end

section
/-! PROOFS. INIT (42_init_sequencer.md rules R90 to R99): the state after it, what it sends, the chain of nine states
that performs it, and its times. -/

namespace Sys2Proof.Machine

/-! ## The state after INIT -/

/-- INIT's events performed whole, as one update (R97): the lines end at 0, 1, 1. -/
theorem emitAll_evInit (cfg : Config) (s : State) :
    emitAll (evInit cfg) s = { s with
      rs := some false, e := some true, db := some 0x1, trace := s.trace ++ evInit cfg } := by
  rw [emitAll_eq, replay_evInit]

theorem refusal_of_mayConstruct {s : State} (h : s.MayConstruct) : s.refusal .construction = none :=
  refusal_construction_eq_none.mpr ⟨h.idle, h.uninit, h.config⟩

/-- Settles O13: INIT is admitted, and its events are one update of the lines and the trace. -/
theorem initRunsTheProtocol : Obligations.InitRunsTheProtocol := by
  intro s h
  rw [exec_of_none (i := .init) (refusal_of_mayConstruct h), eventsOf, emitAll_evInit]
  rfl

/-! ## What INIT sends -/

theorem nibblesFrom_evInitNibble3 (rs : Bit) (db : Option Nibble) (cfg : Config) :
    nibblesFrom ⟨some rs, some true, db⟩ (evInitNibble3 cfg) = [(rs, 0x3)] := rfl

@[simp] theorem replay_evInitNibble3 (l : Lines) (cfg : Config) :
    l.replay (evInitNibble3 cfg) = ⟨l.rs, some true, some 0x3⟩ := rfl

/-- INIT's first three events raise enable and latch nothing; each frame and each command after them is latched with
register-select low. -/
theorem nibbles_evInit (cfg : Config) :
    nibbles (evInit cfg) =
      [(false, 0x3), (false, 0x3), (false, 0x3), (false, 0x2), (false, 0x2), (false, 0x8), (false, 0x0), (false, 0xC),
       (false, 0x0), (false, 0x6), (false, 0x0), (false, 0x1)] := by
  have start : Lines.unwritten.replay [.setE true, .setRS false, .wait cfg.tPowerOn] = ⟨some false, some true, none⟩ :=
    rfl
  have quiet : nibblesFrom Lines.unwritten [.setE true, .setRS false, .wait cfg.tPowerOn] = [] := rfl
  simp only [nibbles, evInit, nibblesFrom_append, replay_append, start, quiet, nibblesFrom_evInitNibble3,
    replay_evInitNibble3, nibblesFrom_evNibble, replay_evNibble, nibblesFrom_evCommand, replay_evCommand,
    nibblesFrom_evClear]
  rfl

/-- Settles O14: the nibbles frame by frame, and the bytes they pair to. -/
theorem initSendsNibblesThenCommands : Obligations.InitSendsNibblesThenCommands :=
  fun cfg => ⟨nibbles_evInit cfg, bytes_evInit cfg⟩

/-! ## The sequencer -/

/-- S1 to S8 in order do the parts of `ev_init` (R98); S0 and READY do nothing. -/
theorem chain_eq_evInit (cfg : Config) : SeqState.chain cfg .s0 9 = evInit cfg := by
  simp [SeqState.chain, SeqState.events, SeqState.next, evInit, evClear, List.replicate]

/-- Settles O15. -/
theorem sequencerChainIsInit : Obligations.SequencerChainIsInit :=
  fun cfg => ⟨chain_eq_evInit cfg, rfl⟩

/-! ## Times and counts -/

/-- INIT's first three events: only the wait takes time (R91, R92). -/
theorem minDuration_powerOn (cfg : Config) :
    minDuration [.setE true, .setRS false, .wait cfg.tPowerOn] = cfg.tPowerOn := rfl

theorem minDuration_evInit (cfg : Config) :
    minDuration (evInit cfg) = cfg.tPowerOn + 4 * cfg.tLong + 24 * cfg.tPulse := by
  simp only [evInit, minDuration_append, minDuration_powerOn, minDuration_evInitNibble3, minDuration_evNibble, minDuration_evCommand,
    minDuration_evClear]
  omega

@[simp] theorem fallTimes_evInitNibble3 (t : Nat) (cfg : Config) :
    fallTimes t (evInitNibble3 cfg) = [t + cfg.tPulse] := rfl

@[simp] theorem fallTimes_evClear (t : Nat) (cfg : Config) :
    fallTimes t (evClear cfg) = [t + cfg.tPulse, t + 2 * cfg.tPulse + cfg.tPulse] := by
  rw [evClear, fallTimes_append, fallTimes_evCommand]
  rfl

/-- Enable falls once in each frame, one T_PULSE after the frame begins, and a long wait follows each of the first
three (R152). -/
theorem fallTimes_evInit (cfg : Config) :
    fallTimes 0 (evInit cfg) =
      let first := cfg.tPowerOn + cfg.tPulse
      let fourth := first + 3 * (cfg.tLong + 2 * cfg.tPulse)
      [first, first + (cfg.tLong + 2 * cfg.tPulse), first + 2 * (cfg.tLong + 2 * cfg.tPulse)] ++
        (List.range 9).map fun k => fourth + k * (2 * cfg.tPulse) := by
  have quiet : fallTimes 0 [.setE true, .setRS false, .wait cfg.tPowerOn] = [] := rfl
  have nine : List.range 9 = [0, 1, 2, 3, 4, 5, 6, 7, 8] := rfl
  simp only [evInit, fallTimes_append, minDuration_append, quiet, minDuration_powerOn, minDuration_evInitNibble3,
    minDuration_evNibble, minDuration_evCommand, fallTimes_evInitNibble3, fallTimes_evNibble, fallTimes_evCommand,
    fallTimes_evClear, nine]
  simp only [List.map_cons, List.map_nil, List.cons_append, List.nil_append, List.cons.injEq, and_true]
  omega

/-- Settles O16: which events INIT's list holds does not depend on the configuration, so the counts compute; the two
times add up frame by frame. -/
theorem initTimingAndCounts : Obligations.InitTimingAndCounts :=
  fun cfg => ⟨length_evInit cfg, rfl, rfl, rfl, rfl, minDuration_evInit cfg, fallTimes_evInit cfg⟩

end Sys2Proof.Machine
end

section
/-! PROOFS. The character-stream operations (43_text_ops.md rules R100 to R103): the next state of WRITE_CHAR and of
NEWLINE, the ways of saying NEWLINE, WRITE_STRING as requests and as a full row, and what a host's step can answer
(60_exceptions.md rule R133). -/

namespace Sys2Proof.Machine

/-! ## The next state -/

/-- After INIT an operation writes its registers, gives its result and performs its events. -/
theorem exec_operation {i : Instr} {s : State} (h : s.MayOperate) (hn : needOf s.cfg i = .operation) :
    exec i s =
      .next (emitAll (eventsOf i s) ((s.setRegisters (registersAfter i s)).deliver (resultOf s.cfg i))) :=
  exec_of_none (hn ▸ refusal_of_mayOperate h)

/-- NEWLINE's command performed whole, as one update (R101). -/
theorem emitAll_evNewline {cfg : Config} (hw : cfg.wf = true) {row : Byte} (hr : row.toNat < cfg.rows.toNat)
    (u : State) :
    emitAll (evNewline cfg row) u =
      let address := ddramAddr cfg ((row.toNat + 1) % cfg.rows.toNat) 0
      { u with
        rs := some false, e := some true, db := some (lowNibble address),
        trace := u.trace ++ evCommand cfg (addressCommand address) } := by
  have hle : ddramAddr cfg ((row.toNat + 1) % cfg.rows.toNat) 0 ≤ 0x7F :=
    ddramAddr_le hw (Nat.mod_lt _ (Nat.zero_lt_of_lt hr)) (config_wf_cases hw).2.1
  rw [evNewline_eq hw hr, emitAll_evCommand, lowNibble_addressCommand hle]

theorem eventsOf_writeChar_newline (s : State) :
    eventsOf (.writeChar s.cfg.newlineChar) s = evNewline s.cfg s.cursorRow := if_pos rfl

theorem registersAfter_writeChar_newline (s : State) :
    registersAfter (.writeChar s.cfg.newlineChar) s = ⟨nextRow s.cfg s.cursorRow, 0, s.phase⟩ := if_pos (.inl rfl)

section WriteChar

variable {s : State} {c : Byte} (hcol : s.cursorColumn.toNat < s.cfg.columns.toNat) (hc : c ≠ s.cfg.newlineChar)

include hcol hc

theorem eventsOf_writeChar_last (hl : s.cursorColumn.toNat + 1 = s.cfg.columns.toNat) :
    eventsOf (.writeChar c) s = evData s.cfg c ++ evNewline s.cfg s.cursorRow := by
  rw [eventsOf, if_neg hc, if_pos ((wraps_iff hcol).mpr hl)]

theorem eventsOf_writeChar_inside (hl : s.cursorColumn.toNat + 1 ≠ s.cfg.columns.toNat) :
    eventsOf (.writeChar c) s = evData s.cfg c := by
  rw [eventsOf, if_neg hc, if_neg (mt (wraps_iff hcol).mp hl)]

end WriteChar

/-- Settles O18: on each path the registers of the path and its events, each byte one update of the lines. -/
theorem writeCharSendsAdvancesAndWraps : Obligations.WriteCharSendsAdvancesAndWraps := by
  refine fun s c hm hr => ⟨fun hc => ?_, fun hc hl => ?_, fun hc hl => ?_⟩
  · subst hc
    rw [exec_operation hm rfl, eventsOf_writeChar_newline, registersAfter_writeChar_newline, nextRow_eq_ofNat hr,
      emitAll_evNewline hm.config hr]
    rfl
  · have hcol : s.cursorColumn.toNat < s.cfg.columns.toNat := by omega
    rw [exec_operation hm rfl, eventsOf_writeChar_last hcol hc hl, registersAfter_writeChar_last hcol hl,
      nextRow_eq_ofNat hr, emitAll_append, emitAll_evData, emitAll_evNewline hm.config hr]
    rfl
  · have hcol : s.cursorColumn.toNat < s.cfg.columns.toNat := by omega
    have hnext : BitVec.ofNat 8 (s.cursorColumn.toNat + 1) = s.cursorColumn + 1 := by
      rw [BitVec.ofNat_add, BitVec.ofNat_toNat, BitVec.setWidth_eq]
      rfl
    rw [exec_operation hm rfl, eventsOf_writeChar_inside hcol hc hl.ne, registersAfter_writeChar_inside hcol hc hl.ne,
      emitAll_evData, hnext]
    rfl

/-- Settles O19: NEWLINE writes the next row's start to the cursor and sends its address. -/
theorem newlineMovesToNextRow : Obligations.NewlineMovesToNextRow := by
  intro s hm hr
  rw [exec_operation hm rfl, eventsOf, registersAfter, nextRow_eq_ofNat hr, emitAll_evNewline hm.config hr]
  rfl

/-! ## NEWLINE by other names -/

/-- Two operations that write the same registers and perform the same events differ in the result only. -/
theorem exec_eq_respond {i j : Instr} {s t : State} {r r' : Response} (h : exec i s = .next t)
    (hneed : needOf s.cfg j = needOf s.cfg i) (hregisters : registersAfter j s = registersAfter i s)
    (hevents : eventsOf j s = eventsOf i s) (hi : resultOf s.cfg i = some r') (hj : resultOf s.cfg j = some r) :
    exec j s = .next (t.respond r) := by
  obtain ⟨hn, rfl⟩ := exec_eq_next h
  rw [exec_of_none (hneed ▸ hn), hregisters, hevents, hi, hj, State.deliver_some, State.deliver_some,
    ← emitAll_respond, State.respond_respond]

theorem registersAfter_locate {s : State} {column row : Int} (h : InGeometry s.cfg column row) :
    registersAfter (.locate column row) s = ⟨BitVec.ofInt 8 row, BitVec.ofInt 8 column, s.phase⟩ := if_pos h

/-- Settles O20: the three write the same registers and perform the same events. -/
theorem newlineIsLocateOfNextRow : Obligations.NewlineIsLocateOfNextRow := by
  intro s hm hr
  have hg := inGeometry_nextRow hm.config hr
  have hnewline := exec_operation (i := .newline) hm rfl
  refine ⟨_, hnewline, ?_, ?_⟩
  · rw [← nextRow_toNat _ _ hr]
    refine exec_eq_respond hnewline rfl ?_ rfl rfl (congrArg some (if_pos hg))
    rw [registersAfter_locate hg, ofInt_natCast_toNat]
    rfl
  · exact exec_eq_respond hnewline rfl (registersAfter_writeChar_newline s) (eventsOf_writeChar_newline s) rfl rfl

/-! ## An operation after another -/

/-- No instruction takes the block out of READY. -/
theorem registersAfter_ready {s : State} (i : Instr) (h : s.phase = .ready) :
    (registersAfter i s).phase = .ready := by
  cases i with
  | init => rfl
  | writeChar c => rw [registersAfter]; split <;> exact h
  | locate column row => rw [registersAfter]; split <;> exact h
  | _ => exact h

theorem mayOperate_exec {i : Instr} {s t : State} (hm : s.MayOperate) (h : exec i s = .next t) : t.MayOperate := by
  obtain ⟨hcfg, hregisters, -⟩ := exec_changes h
  have hphase : t.phase = (registersAfter i s).phase := congrArg Registers.phase hregisters
  refine ⟨?_, hphase.trans (registersAfter_ready i hm.ready), hcfg ▸ hm.config⟩
  obtain ⟨-, rfl⟩ := exec_eq_next h
  simpa using hm.idle

/-- Settles O21: the cursor LOCATE wrote decides which path WRITE_CHAR takes. -/
theorem locateThenWriteCharAdvances : Obligations.LocateThenWriteCharAdvances := by
  intro s column row c hm hcolumn hrow hc
  have hg : InGeometry s.cfg column row := ⟨by omega, by omega, by omega, by omega⟩
  have ⟨hcolumn0, hcolumn1, hrow0, hrow1⟩ := hg
  obtain ⟨t, ht⟩ : ∃ t, exec (.locate column row) s = .next t := ⟨_, exec_operation hm rfl⟩
  obtain ⟨hcfg, hregisters, -⟩ := exec_changes ht
  rw [registersAfter_locate hg] at hregisters
  injection hregisters with htrow htcolumn _
  replace htrow : t.cursorRow.toNat = row := by
    rw [htrow, ofInt_toNat_of_lt hrow0 hrow1, Int.toNat_natCast]
  replace htcolumn : t.cursorColumn.toNat = column := by
    rw [htcolumn, ofInt_toNat_of_lt hcolumn0 hcolumn1, Int.toNat_natCast]
  subst htrow htcolumn
  rw [← hcfg] at hcolumn hrow hc ⊢
  refine ⟨t, _, ht, exec_operation (mayOperate_exec hm ht) rfl, ?_⟩
  split
  · next hl =>
    rw [emitAll_cursorColumn, emitAll_cursorRow, registersAfter_writeChar_last hcolumn hl]
    exact ⟨rfl, nextRow_toNat _ _ hrow⟩
  · next hl =>
    rw [emitAll_cursorColumn, emitAll_cursorRow, registersAfter_writeChar_inside hcolumn hc hl]
    exact ⟨succ_toNat hcolumn, rfl⟩

/-! ## WRITE_STRING -/

theorem writeString_of_next {c : Byte} {rest : List Byte} {s t : State} (h : exec (.writeChar c) s = .next t) :
    writeString (c :: rest) s = writeString rest t := by
  have h' : execWriteChar c s = .next t := h
  rw [writeString, h']

theorem writeString_of_refused {c : Byte} {rest : List Byte} {s : State} {r : Refusal}
    (h : exec (.writeChar c) s = .refused r) : writeString (c :: rest) s = .refused r := by
  have h' : execWriteChar c s = .refused r := h
  rw [writeString, h']

/-- A meaning leaves the step's own fields: what is pending, the level and the requests. -/
theorem exec_leaves {i : Instr} {s t : State} (h : exec i s = .next t) :
    t.pending = s.pending ∧ t.level = s.level ∧ t.requests = s.requests := by
  obtain ⟨-, rfl⟩ := exec_eq_next h
  exact ⟨by simp, by simp, by simp⟩

/-- A meaning refuses whatever the requests still to come. -/
theorem exec_setRequests_of_refused {i : Instr} {s : State} {r : Refusal} (rs : List Request)
    (h : exec i s = .refused r) : exec i (s.setRequests rs) = .refused r :=
  exec_of_some (s := s.setRequests rs) (exec_eq_refused (s := s) h)

theorem issue_writeString {s : State} (hq : s.requests = []) (str : List Byte) :
    s.issue (.writeString str) = s.setRequests (str.map fun c => .op (.writeChar c)) := by
  rw [State.issue, hq]
  rfl

/-- The first step after the call takes its first character. -/
theorem step_issue_writeString {s : State} (hp : s.pending = []) (hq : s.requests = []) (hl : s.level = .operation)
    (c : Byte) (str : List Byte) :
    step (s.issue (.writeString (c :: str))) =
      exec (.writeChar c) (s.setRequests (str.map fun c => .op (.writeChar c))) := by
  rw [issue_writeString hq, List.map_cons]
  have taken := step_of_fetched (s := s.setRequests (.op (.writeChar c) :: str.map fun c => .op (.writeChar c)))
    (i := .writeChar c) hp rfl rfl
  exact taken.trans (runAt_operation _ hl)

/-- Settles O22, by induction over the string: the first outcome is that of its WRITE_CHAR, which does not read
the requests that wait. -/
theorem writeStringIsRepeatedWriteChar : Obligations.WriteStringIsRepeatedWriteChar := by
  intro str
  induction str with
  | nil =>
    intro s _ hq _
    rw [issue_writeString hq, List.map_nil, ← hq]
    rfl
  | cons c str ih =>
    intro s hp hq hl
    have hstep := step_issue_writeString hp hq hl c str
    rw [List.length_cons]
    cases hx : exec (.writeChar c) s with
    | next t =>
      obtain ⟨hp', hl', hq'⟩ := exec_leaves hx
      rw [exec_setRequests _ hx, ← issue_writeString (hq'.trans hq)] at hstep
      rw [steps_of_next hstep, writeString_of_next hx]
      exact ih t (hp'.trans hp) (hq'.trans hq) (hl'.trans hl)
    | refused r =>
      rw [exec_setRequests_of_refused _ hx] at hstep
      rw [steps_of_refused hstep, writeString_of_refused hx]
    | fault f => cases f

/-! ## A host's step -/

/-- A host's word is rejected only for a reserved `op` (R58, R59). -/
theorem fetch_error_of_fromHost {r : Request} {e : Reject} (hr : r.fromHost = true) (hf : fetch r = .error e) :
    e = .reservedOp := by
  cases r with
  | op i => cases hf
  | word w =>
    cases w with
    | req19 w =>
      simp only [fetch, decode, decodeReq] at hf
      split at hf <;> cases hf
      rfl
    | cmd8 | nib4 | data8 => cases hr

theorem needOf_upward (cfg : Config) {i : Instr} (hu : i.upward = true) :
    needOf cfg i = .construction ∨ needOf cfg i = .operation := by
  by_cases hi : i = .init
  · exact .inl (hi ▸ rfl)
  · exact .inr (needOf_operation cfg hu hi)

/-- An upward operation with nothing in flight meets only the refusals of R133 (a) to (c): its phase or the
configuration. -/
theorem refusal_upward_mem {i : Instr} {s : State} {r : Refusal} (hu : i.upward = true) (hp : s.pending = [])
    (h : s.refusal (needOf s.cfg i) = some r) : r ∈ hostRefusals := by
  unfold State.refusal at h
  rw [if_neg (not_not_intro hp)] at h
  rcases needOf_upward s.cfg hu with hneed | hneed
  all_goals
    rw [hneed] at h
    dsimp only at h
    split at h
    · cases h; decide
    · split at h
      · cases h
      · cases h; decide

theorem runAt_of_none {i : Instr} {s : State} (h : s.refusal (needOf s.cfg i) = none) : ∃ t, runAt i s = .next t := by
  cases hl : s.level with
  | operation => exact ⟨_, (runAt_operation i hl).trans (exec_of_none h)⟩
  | event => exact ⟨_, (runAt_event i hl).trans (accept_of_none h)⟩

theorem runAt_of_some {i : Instr} {s : State} {r : Refusal} (h : s.refusal (needOf s.cfg i) = some r) :
    runAt i s = .refused r := by
  cases hl : s.level with
  | operation => exact (runAt_operation i hl).trans (exec_of_some h)
  | event => exact (runAt_event i hl).trans (accept_of_some h)

/-- A host's step answers a next state, or meets one of the four refusals. -/
theorem step_next_or_hostRefusal {s : State} (h : s.HostDriven) :
    (∃ t, step s = .next t) ∨ ∃ r ∈ hostRefusals, step s = .refused r := by
  cases hp : s.pending with
  | cons ev rest => exact .inl ⟨_, step_of_pending hp⟩
  | nil =>
    cases hq : s.requests with
    | nil => exact .inl ⟨s, step_of_noRequest hp hq⟩
    | cons r rest =>
      have hr : r.fromHost = true := List.all_eq_true.mp h r (by simp [hq])
      cases hf : fetch r with
      | error e =>
        obtain rfl := fetch_error_of_fromHost hr hf
        exact .inr ⟨.reservedOp, by decide, step_of_rejected hp hq hf⟩
      | ok i =>
        rw [step_of_fetched hp hq hf]
        cases hn : (s.setRequests rest).refusal (needOf s.cfg i) with
        | none => exact .inl (runAt_of_none hn)
        | some r' => exact .inr ⟨r', refusal_upward_mem (fetch_upward hr hf) hp hn, runAt_of_some hn⟩

/-- Settles O45: a safe block in READY is well-formed, so nothing stands against an operation. -/
theorem safeStepCompletesOrRefuses : Obligations.SafeStepCompletesOrRefuses := by
  refine fun s h => ⟨step_next_or_hostRefusal h.host, fun r i rest hp hf hq hi hne => ?_⟩
  have hm : s.MayOperate := ⟨hp, hf, (h.cursor hf).1⟩
  have hu : i.upward = true := fetch_upward (List.all_eq_true.mp h.host r (by simp [hq])) hi
  have hn : (s.setRequests rest).refusal (needOf s.cfg i) = none := by
    rw [needOf_operation s.cfg hu hne, refusal_setRequests, refusal_of_mayOperate hm]
  obtain ⟨t, ht⟩ := runAt_of_none hn
  obtain ⟨-, -, -, hrest⟩ := runAt_changes ht
  exact ⟨t, (step_of_fetched hp hq hi).trans ht, hrest⟩

/-! ## A full row -/

/-- Characters that fill a row to its end: their data bytes, then NEWLINE's events and registers (R103 (b)). -/
theorem writeString_fills_row {str : List Byte} {s : State} (hm : s.MayOperate)
    (hcol : s.cursorColumn.toNat < s.cfg.columns.toNat)
    (hfill : s.cursorColumn.toNat + str.length = s.cfg.columns.toNat) (hstr : s.cfg.newlineChar ∉ str) :
    ∃ t, writeString str s = .next t ∧ t.cfg = s.cfg ∧ t.registers = ⟨nextRow s.cfg s.cursorRow, 0, s.phase⟩ ∧
      t.trace = s.trace ++ (str.flatMap (evData s.cfg) ++ evNewline s.cfg s.cursorRow) := by
  induction str generalizing s with
  | nil => exact absurd hfill hcol.ne
  | cons c rest ih =>
    obtain ⟨hc, hrest⟩ : c ≠ s.cfg.newlineChar ∧ s.cfg.newlineChar ∉ rest := by
      simpa [eq_comm] using hstr
    rw [List.length_cons] at hfill
    obtain ⟨u, hu⟩ : ∃ u, exec (.writeChar c) s = .next u := ⟨_, exec_operation hm rfl⟩
    obtain ⟨hcfg, hregisters, htrace⟩ := exec_changes hu
    rw [writeString_of_next hu]
    by_cases hl : s.cursorColumn.toNat + 1 = s.cfg.columns.toNat
    · obtain rfl : rest = [] := List.length_eq_zero_iff.mp (by omega)
      rw [registersAfter_writeChar_last hcol hl] at hregisters
      rw [eventsOf_writeChar_last hcol hc hl] at htrace
      exact ⟨u, rfl, hcfg, hregisters, by simpa using htrace⟩
    · rw [registersAfter_writeChar_inside hcol hc hl] at hregisters
      rw [eventsOf_writeChar_inside hcol hc hl] at htrace
      injection hregisters with hurow hucolumn huphase
      have hnext : u.cursorColumn.toNat = s.cursorColumn.toNat + 1 := by rw [hucolumn, succ_toNat hcol]
      obtain ⟨t, ht, htcfg, htregisters, httrace⟩ := ih (mayOperate_exec hm hu) (by rw [hnext, hcfg]; omega)
        (by rw [hnext, hcfg]; omega) (hcfg ▸ hrest)
      rw [hcfg, hurow] at htregisters httrace
      rw [huphase] at htregisters
      exact ⟨t, ht, htcfg.trans hcfg, htregisters, by rw [httrace, htrace]; simp⟩

theorem sends_characters (cfg : Config) (str : List Byte) :
    Sends cfg (str.flatMap (evData cfg)) (str.map fun c => (true, c)) := by
  induction str with
  | nil => exact Sends.nil cfg
  | cons c rest ih => exact (sends_evData cfg c).append ih

/-- On a geometry whose rows keep to their DDRAM line, characters that do not leave the row are stored one cell after
the other (R43, R103 (c)). -/
theorem writesFrom_characters {cfg : Config} (hw : cfg.wf = true) (hk : rowsKeepLine cfg = true) {row : Nat}
    (hr : row < cfg.rows.toNat) {column : Nat} {str : List Byte} (hfit : column + str.length ≤ cfg.columns.toNat) :
    writesFrom (some (BitVec.ofNat 7 (ddramAddr cfg row column))) (str.map fun c => (true, c)) =
      str.mapIdx fun k c => (some (BitVec.ofNat 7 (ddramAddr cfg row (column + k))), c) := by
  induction str generalizing column with
  | nil => rfl
  | cons c rest ih =>
    rw [List.length_cons] at hfit
    cases rest with
    | nil => rfl
    | cons c' rest =>
      rw [List.length_cons] at hfit
      have hnext := nextPointer_ddramAddr hw hk hr (column := column) (by omega)
      rw [List.map_cons, writesFrom, pointerAfter, Option.bind_some, hnext, ih (by rw [List.length_cons]; omega)]
      refine Eq.trans ?_ List.mapIdx_cons.symm
      simp only [Nat.add_assoc, Nat.add_comm 1, Nat.add_zero]

/-- Settles O50: the row's characters and the command after them are all that is sent; the command puts the pointer
at the cursor, and before it the stores go cell by cell. -/
theorem fullRowWrapsAfterLastColumn : Obligations.FullRowWrapsAfterLastColumn := by
  intro s str h hm hzero hlen hstr
  obtain ⟨hwf, hr, hcol⟩ := h.cursor hm.ready
  have hw := whole_trace h hm
  have hcolumn : s.cursorColumn.toNat = 0 := by rw [hzero]; rfl
  obtain ⟨t, ht, hcfg, hregisters, htrace⟩ := writeString_fills_row hm hcol (by omega) hstr
  injection hregisters with hrow hcol' hphase
  have hsend := (sends_characters s.cfg str).append (sends_evNewline hwf hr)
  have htrow : t.cursorRow.toNat = (s.cursorRow.toNat + 1) % s.cfg.rows.toNat := by rw [hrow, nextRow_toNat _ _ hr]
  have hle := ddramAddr_le hwf (Nat.mod_lt (s.cursorRow.toNat + 1) (Nat.zero_lt_of_lt hr)) (config_wf_cases hwf).2.1
  refine ⟨t, ht, hcol', htrow, ?_, ?_, fun hs hk => ?_⟩
  · rw [State.InSync, htrace, hsend.pointer hw, pointerFrom_append, pointerFrom_addressCommand hle, hcfg, htrow, hcol']
    rfl
  · rw [htrace, hsend.bytes_eq hw, List.append_assoc]
  · rw [htrace, hsend.writes hw, writesFrom_append, writesFrom_command, List.append_nil, hs, hcolumn,
      writesFrom_characters hwf hk hr (by omega)]
    simp only [Nat.zero_add]

end Sys2Proof.Machine
end

section
/-! PROOFS. The cursor-control operations (44_cursor_ops.md rules R110 to R112): the next state of LOCATE on the geometry
and of CLEAR, and LOCATE repeated. -/

namespace Sys2Proof.Machine

/-! ## LOCATE -/

theorem resultOf_locate_ok {cfg : Config} {column row : Int} (h : InGeometry cfg column row) :
    resultOf cfg (.locate column row) = some .ok := congrArg some (if_pos h)

/-- LOCATE's command performed whole, as one update (R110): the low nibble left on the data lines is the address's. -/
theorem emitAll_evLocate {cfg : Config} (hw : cfg.wf = true) {column row : Int} (h : InGeometry cfg column row)
    (u : State) :
    emitAll (evLocate cfg column row) u =
      let address := ddramAddr cfg row.toNat column.toNat
      { u with
        rs := some false, e := some true, db := some (lowNibble address),
        trace := u.trace ++ evCommand cfg (addressCommand address) } := by
  have ⟨_, _, _, _⟩ := h
  have hle : ddramAddr cfg row.toNat column.toNat ≤ 0x7F := ddramAddr_le hw (by omega) (by omega)
  rw [evLocate, if_pos h, emitAll_evCommand, lowNibble_addressCommand hle]

/-- Settles O23: LOCATE writes its operands to the cursor and sends the address of the cell they name. -/
theorem locateMovesCursorAndAddresses : Obligations.LocateMovesCursorAndAddresses := by
  intro s column row hm hcolumn0 hcolumn1 hrow0 hrow1
  have hg : InGeometry s.cfg column row := ⟨hcolumn0, hcolumn1, hrow0, hrow1⟩
  rw [exec_operation hm rfl, eventsOf, registersAfter_locate hg, resultOf_locate_ok hg, emitAll_evLocate hm.config hg]
  rfl

/-- Settles O26: what LOCATE writes does not depend on the cursor and lines it finds, so from the state after it the
same values are written again and only the trace grows. -/
theorem locateTwiceIsLocateOnce : Obligations.LocateTwiceIsLocateOnce := by
  intro s column row hm ⟨hcolumn0, hcolumn1, hrow0, hrow1⟩
  have once := locateMovesCursorAndAddresses s column row hm hcolumn0 hcolumn1 hrow0 hrow1
  exact ⟨_, _, once, rfl,
    locateMovesCursorAndAddresses _ column row (mayOperate_exec hm once) hcolumn0 hcolumn1 hrow0 hrow1⟩

/-! ## CLEAR -/

/-- The twelve events of CLEAR, with the nibbles of 0x01 written out (R111). -/
theorem evClear_eq (cfg : Config) : evClear cfg =
    [.setRS false, .setDB 0x0, .wait cfg.tPulse, .setE false, .wait cfg.tPulse, .setE true,
     .setDB 0x1, .wait cfg.tPulse, .setE false, .wait cfg.tPulse, .setE true, .wait cfg.tLong] := rfl

/-- CLEAR's events performed whole, as one update (R111): the lines end at 0, 1, 1. -/
theorem emitAll_evClear (cfg : Config) (s : State) :
    emitAll (evClear cfg) s = { s with
      rs := some false, e := some true, db := some 0x1, trace := s.trace ++ evClear cfg } := by
  rw [emitAll_eq, replay_evClear]

/-- Settles O27: CLEAR is admitted, keeps its registers, and its events are one update of the lines and the trace. -/
theorem clearSendsOneAndWaitsLong : Obligations.ClearSendsOneAndWaitsLong := by
  intro s hm
  rw [exec_operation hm rfl, eventsOf, emitAll_evClear, evClear_eq]
  rfl

end Sys2Proof.Machine
end

section
/-! PROOFS. The single error (60_exceptions.md rules R124 and R125): the next state of a LOCATE off the geometry, and
why no operation can tell that it was issued. -/

namespace Sys2Proof.Machine

/-! ## LOCATE off the geometry -/

theorem evLocate_outOfRange {cfg : Config} {column row : Int} (h : ¬ InGeometry cfg column row) :
    evLocate cfg column row = [] := if_neg h

theorem registersAfter_locate_outOfRange {s : State} {column row : Int} (h : ¬ InGeometry s.cfg column row) :
    registersAfter (.locate column row) s = s.registers := if_neg h

theorem resultOf_locate_outOfRange {cfg : Config} {column row : Int} (h : ¬ InGeometry cfg column row) :
    resultOf cfg (.locate column row) = some (.err .outOfRange) := congrArg some (if_neg h)

/-- The failed LOCATE returns its error and does nothing else (R124). -/
theorem exec_locate_outOfRange {s : State} (hm : s.MayOperate) {column row : Int} (h : ¬ InGeometry s.cfg column row) :
    exec (.locate column row) s = .next (s.respond (.err .outOfRange)) := by
  rw [exec_operation hm rfl, eventsOf, evLocate_outOfRange h, emitAll_nil, registersAfter_locate_outOfRange h,
    setRegisters_self, resultOf_locate_outOfRange h, State.deliver_some]

/-- Settles O24: an operand below 0 or at or above its bound is off the geometry. -/
theorem locateOutOfRangeChangesNothing : Obligations.LocateOutOfRangeChangesNothing := by
  intro s column row hm hout
  have hg : ¬ InGeometry s.cfg column row := fun ⟨_, _, _, _⟩ => by omega
  exact exec_locate_outOfRange hm hg

/-! ## The response decides nothing -/

theorem registersAfter_respond (i : Instr) (r : Response) (s : State) :
    registersAfter i (s.respond r) = registersAfter i s := by cases i <;> rfl

theorem eventsOf_respond (i : Instr) (r : Response) (s : State) :
    eventsOf i (s.respond r) = eventsOf i s := by cases i <;> rfl

theorem deliver_respond {result : Option Response} (h : result.isSome = true) (r : Response) (s : State) :
    (s.respond r).deliver result = s.deliver result := by
  obtain ⟨r', rfl⟩ := Option.isSome_iff_exists.mp h
  rfl

/-- Every upward operation returns a result of its own (R58). -/
theorem resultOf_upward (cfg : Config) {i : Instr} (hu : i.upward = true) : (resultOf cfg i).isSome = true := by
  cases i with
  | init | writeChar | locate | clear | newline => rfl
  | _ => cases hu

/-- An upward operation never reads the last result and replaces it, so it does the same whatever that result was. -/
theorem exec_respond_of_upward {i : Instr} (hu : i.upward = true) (r : Response) (s : State) :
    exec i (s.respond r) = exec i s := by
  cases hn : s.refusal (needOf s.cfg i) with
  | some refusal => rw [exec_of_some hn, exec_of_some (s := s.respond r) hn]
  | none =>
    have hdeliver : ((s.respond r).setRegisters (registersAfter i s)).deliver (resultOf s.cfg i) =
        (s.setRegisters (registersAfter i s)).deliver (resultOf s.cfg i) :=
      deliver_respond (resultOf_upward s.cfg hu) r (s.setRegisters (registersAfter i s))
    rw [exec_of_none hn, exec_of_none (s := s.respond r) hn, registersAfter_respond, eventsOf_respond,
      State.respond_cfg, hdeliver]

/-- Settles O25: the failed LOCATE leaves a mark in the response only, which no operation reads. -/
theorem failedLocateLeavesNoMark : Obligations.FailedLocateLeavesNoMark := by
  intro s t column row i hm hg ht hu
  rw [exec_locate_outOfRange hm hg] at ht
  cases ht
  exact exec_respond_of_upward hu _ s

end Sys2Proof.Machine
end

section
/-! PROOFS. Reset and the hazards (70_reset_and_hazards.md): the order of the refusals (60_exceptions.md rule R133), a
word placed at reset (R142), the contract under any step (R144), the display after CLEAR and NEWLINE (R143), and the
durations and enable falls (R151, R152). -/

namespace Sys2Proof.Machine

/-! ## The order of the refusals -/

/-- Busy comes before every other test. -/
theorem refusal_of_inFlight {s : State} (need : Need) (hp : s.pending ≠ []) : s.refusal need = some .busy :=
  if_pos hp

/-- What the phase and then the configuration refuse to INIT. -/
theorem refusal_construction_of_idle {s : State} (hp : s.pending = []) :
    s.refusal .construction =
      if s.phase = .ready then some .alreadyInitialized else if s.cfg.wf then none else some .badConfig :=
  if_neg (not_not_intro hp)

/-- What the phase and then the configuration refuse to the other operations. -/
theorem refusal_operation_of_idle {s : State} (hp : s.pending = []) :
    s.refusal .operation =
      if s.phase = .uninit then some .notInitialized else if s.cfg.wf then none else some .badConfig :=
  if_neg (not_not_intro hp)

/-- Settles O32: Busy is tested first for every need, then the phase of INIT's need or of an operation's, then the
configuration. -/
theorem requestsAreRefusedInOrder : Obligations.RequestsAreRefusedInOrder := by
  refine fun s i => ⟨fun hp => ?_, fun hp hu => ⟨?_, fun hi hf => ?_, ?_, fun hi hf hw => ?_⟩⟩
  · have busy := refusal_of_inFlight (needOf s.cfg i) hp
    exact ⟨exec_of_some busy, accept_of_some busy⟩
  · rintro rfl hf
    exact exec_of_some (i := .init) ((refusal_construction_of_idle hp).trans (by simp [hf]))
  · refine exec_of_some ?_
    rw [needOf_operation s.cfg hu hi, refusal_operation_of_idle hp, if_pos hf]
  · rintro rfl hf hw
    exact exec_of_some (i := .init) ((refusal_construction_of_idle hp).trans (by simp [hf, hw]))
  · refine exec_of_some ?_
    rw [needOf_operation s.cfg hu hi, refusal_operation_of_idle hp]
    simp [hf, hw]

/-! ## A word placed at reset -/

theorem tableWord_of_decodeTableWord {nbits w : Nat} {i : Instr} (h : decodeTableWord nbits w = some i) :
    ∃ p, tableWord nbits w = some p ∧ decode p = .ok i := by
  unfold decodeTableWord at h
  split at h
  · cases h
  · next p hp =>
    refine ⟨p, hp, ?_⟩
    cases hd : decode p with
    | ok j => rw [hd] at h; cases h; rfl
    | error e => rw [hd] at h; cases h

/-- Booting leaves the state or runs INIT on it. -/
theorem boot_cases (i : Instr) (s : State) : boot i s = s ∨ exec .init s = .next (boot i s) := by
  unfold boot
  split
  · split
    · next t ht => exact .inr ht
    · exact .inl rfl
    · exact .inl rfl
  · exact .inl rfl

theorem boot_leaves (i : Instr) (s : State) :
    (boot i s).pending = s.pending ∧ (boot i s).level = s.level ∧ (boot i s).requests = s.requests := by
  obtain h | h := boot_cases i s
  · rw [h]; exact ⟨rfl, rfl, rfl⟩
  · exact exec_leaves h

/-- A word put first among the requests of an idle block is what the next step runs, on the block as it was. -/
theorem step_of_word_first {s : State} {p : PortWord} {i : Instr} (hp : s.pending = []) (hl : s.level = .operation)
    (hd : decode p = .ok i) : step (s.setRequests (.word p :: s.requests)) = exec i s :=
  (step_of_fetched (s := s.setRequests (.word p :: s.requests)) hp rfl hd).trans (runAt_operation i hl)

theorem withFetchWord_of_decode {s : State} {nbits w : Nat} {p : PortWord} {i : Instr}
    (hw : tableWord nbits w = some p) (hd : decode p = .ok i) :
    s.withFetchWord nbits w =
      (boot i (drain s)).setRequests (.word p :: (boot i (drain s)).requests) := by
  simp only [State.withFetchWord, hw, hd]

/-- Settles O8: reset has no operation to complete, and booting leaves it idle at the operation level. -/
theorem fetchWordRunsItsInstruction : Obligations.FetchWordRunsItsInstruction := by
  intro nbits w i h
  obtain ⟨p, hw, hd⟩ := tableWord_of_decodeTableWord h
  have hdrain : drain State.reset = State.reset := rfl
  obtain ⟨hp, hl, -⟩ := boot_leaves i State.reset
  rw [withFetchWord_of_decode hw hd, hdrain, step_of_word_first hp hl hd]

/-! ## The contract -/

/-- Settles O44: neither clause of the invariant assumes anything of the requests. -/
theorem stepKeepsLinesAndContract : Obligations.StepKeepsLinesAndContract :=
  fun _ _ hl hk h => ⟨linesFollowTrace_step hl h, contractKept_step hk h⟩

/-! ## The display after CLEAR and NEWLINE -/

theorem ofNat_addr_eq_zero_iff {a : Nat} (h : a ≤ 0x7F) : (0 : Addr) = BitVec.ofNat 7 a ↔ a = 0 := by
  rw [← BitVec.toNat_inj, BitVec.toNat_ofNat, Nat.mod_eq_of_lt (by omega)]
  exact eq_comm

/-- CLEAR's command puts the pointer at 0 wherever it was (R43). -/
theorem pointerFrom_clear (ptr : Option Addr) : pointerFrom ptr [(false, 0x01)] = some 0 := rfl

/-- Settles O51: CLEAR keeps the registers and sends the one command 0x01. -/
theorem clearDesynchronisesCursor : Obligations.ClearDesynchronisesCursor := by
  intro s h hm
  obtain ⟨-, hr, hc⟩ := h.cursor hm.ready
  have hw := whole_trace h hm
  have hsend : Sends s.cfg (eventsOf .clear s) [(false, 0x01)] := sends_evClear s.cfg
  obtain ⟨t, ht⟩ : ∃ t, exec .clear s = .next t := ⟨_, exec_operation hm rfl⟩
  obtain ⟨-, hregisters, htrace⟩ := exec_changes ht
  refine ⟨t, ht, congrArg Registers.cursorRow hregisters, congrArg Registers.cursorColumn hregisters, ?_, ?_, ?_⟩
  · rw [htrace, hsend.pointer hw, pointerFrom_clear]
  · rw [ddramWrites_exec ht hw hsend, writesFrom_command, List.append_nil]
  · rw [inSync_exec_iff ht hw hsend (g := s.registers) rfl, pointerFrom_clear, Option.some_inj]
    exact ofNat_addr_eq_zero_iff (ddramAddr_le hm.config hr hc)

/-- An operation with NEWLINE's events and registers synchronises the cursor and stores nothing. -/
theorem synchronises_of_newline {s : State} (h : s.Safe) (hm : s.MayOperate) {i : Instr}
    (hn : needOf s.cfg i = .operation) (hevents : eventsOf i s = evNewline s.cfg s.cursorRow)
    (hregisters : registersAfter i s = ⟨nextRow s.cfg s.cursorRow, 0, s.phase⟩) :
    ∃ t, exec i s = .next t ∧ t.InSync ∧ ddramWrites t.trace = ddramWrites s.trace := by
  obtain ⟨-, hr, -⟩ := h.cursor hm.ready
  have hw := whole_trace h hm
  have hsend : Sends s.cfg (eventsOf i s) _ := hevents ▸ sends_evNewline hm.config hr
  rw [← nextRow_toNat _ _ hr] at hsend
  obtain ⟨t, ht⟩ : ∃ t, exec i s = .next t := ⟨_, exec_operation hm hn⟩
  refine ⟨t, ht, (inSync_exec_iff ht hw hsend hregisters).mpr (pointerFrom_addressCommand ?_), ?_⟩
  · exact ddramAddr_le hm.config (nextRow_lt _ _ hr) (config_wf_cases hm.config).2.1
  · rw [ddramWrites_exec ht hw hsend, writesFrom_command, List.append_nil]

/-- Settles O55: both routes have NEWLINE's events and registers. -/
theorem newlineSynchronises : Obligations.NewlineSynchronises := by
  rintro s h hm i (rfl | rfl)
  · exact synchronises_of_newline h hm rfl rfl rfl
  · exact synchronises_of_newline h hm rfl (eventsOf_writeChar_newline s) (registersAfter_writeChar_newline s)

/-! ## Durations -/

/-- After INIT an operation adds its event list, with the list's length and duration. -/
theorem exec_adds {s : State} (hm : s.MayOperate) (i : Instr) (hn : needOf s.cfg i = .operation) {es : List Event}
    (hes : eventsOf i s = es) {n d : Nat} (hlength : es.length = n) (hduration : minDuration es = d) :
    ∃ t es, exec i s = .next t ∧ t.trace = s.trace ++ es ∧ es.length = n ∧ minDuration es = d := by
  obtain ⟨t, ht⟩ : ∃ t, exec i s = .next t := ⟨_, exec_operation hm hn⟩
  obtain ⟨-, -, htrace⟩ := exec_changes ht
  exact ⟨t, es, ht, hes ▸ htrace, hlength, hduration⟩

theorem wraps_eq_true_iff {s : State} : wraps s = true ↔ s.cursorColumn + 1 = s.cfg.columns := decide_eq_true_iff

/-- Settles O53: LOCATE on the geometry and NEWLINE are one command, a character is one data byte, and the wrap is a
data byte and a command. -/
theorem operationsAddTheirDuration : Obligations.OperationsAddTheirDuration := by
  intro s hm hr
  have newline := evNewline_eq hm.config hr
  refine ⟨fun column row hg => ?_, fun column row hg => ?_, ?_, ?_, ?_, fun c hc hl => ?_, fun c hc hl => ?_⟩
  · exact exec_adds hm (.locate column row) rfl (if_pos hg) (length_evCommand _ _) (minDuration_evCommand _ _)
  · exact exec_adds hm (.locate column row) rfl (evLocate_outOfRange hg) rfl rfl
  · exact exec_adds hm .newline rfl newline (length_evCommand _ _) (minDuration_evCommand _ _)
  · exact exec_adds hm .clear rfl rfl (length_evClear _) (minDuration_evClear _)
  · exact exec_adds hm _ rfl ((eventsOf_writeChar_newline s).trans newline) (length_evCommand _ _)
      (minDuration_evCommand _ _)
  · have hevents : eventsOf (.writeChar c) s = evData s.cfg c := by
      rw [eventsOf, if_neg hc, if_neg (mt wraps_eq_true_iff.mp hl)]
    exact exec_adds hm _ rfl hevents (length_evData _ _) (minDuration_evData _ _)
  · have hevents : eventsOf (.writeChar c) s = evData s.cfg c ++ evNewline s.cfg s.cursorRow := by
      rw [eventsOf, if_neg hc, if_pos (wraps_eq_true_iff.mpr hl)]
    refine exec_adds hm _ rfl hevents ?_ ?_
    · rw [newline, List.length_append, length_evData, length_evCommand]
    · rw [newline, minDuration_append, minDuration_evData, minDuration_evCommand]
      omega

/-! ## Enable falls -/

/-- The least time from a state of the nibble machine to its next enable fall: the waits the frame still owes before
it. After a fall that is the hold of its frame and the setup of the next. -/
def NibbleState.lead (cfg : Config) : NibbleState → Nat
  | .nIdle => cfg.tPulse
  | .nSetup false => cfg.tPulse
  | .nSetup true => 0
  | .nLow false => 2 * cfg.tPulse
  | .nLow true => cfg.tPulse

/-- The machine lets enable fall only where no time is owed before a fall, and twice T_PULSE is owed after it. -/
theorem nibbleNext_fall {cfg : Config} {q q' : NibbleState} (h : nibbleNext cfg q (.setE false) = some q') :
    q.lead cfg = 0 ∧ q'.lead cfg = 2 * cfg.tPulse := by
  rcases q with _ | (_ | _) | (_ | _) <;> cases h
  exact ⟨rfl, rfl⟩

/-- Any other event takes off the time owed no more than it lasts: between frames nothing is taken off, and a frame's
own waits last at least the T_PULSE they take. -/
theorem nibbleNext_lead {cfg : Config} {q q' : NibbleState} {ev : Event} (hev : ev ≠ .setE false)
    (h : nibbleNext cfg q ev = some q') : q.lead cfg ≤ minDuration [ev] + q'.lead cfg := by
  unfold nibbleNext at h
  split at h
  case h_5 d => -- the setup wait of a frame
    split at h
    · next hd => cases h; exact hd
    · cases h
  case h_6 => exact absurd rfl hev
  case h_7 d => -- the hold wait of a frame
    split at h
    · next hd =>
      cases h
      show 2 * cfg.tPulse ≤ d + cfg.tPulse
      omega
    · cases h
  case h_9 => cases h
  all_goals
    cases h
    exact Nat.le_add_left _ _

theorem fallTimes_cons {ev : Event} (hev : ev ≠ .setE false) (t : Nat) (es : List Event) :
    fallTimes t (ev :: es) = fallTimes (t + minDuration [ev]) es := by
  rcases ev with b | (_ | _) | n | d
  · rfl
  · exact absurd rfl hev
  all_goals rfl

/-- The falls of a list the nibble machine accepts from `q`: the first no sooner than the time `q` owes, each next one
no sooner than twice T_PULSE after. -/
theorem fallTimes_spaced {cfg : Config} (es : List Event) {q q' : NibbleState} (t : Nat)
    (h : es.foldlM (nibbleNext cfg) q = some q') :
    (∀ fall ∈ (fallTimes t es).head?, t + q.lead cfg ≤ fall) ∧
      (fallTimes t es).IsChain fun a b => a + 2 * cfg.tPulse ≤ b := by
  induction es generalizing q t with
  | nil => exact ⟨by simp [fallTimes], .nil⟩
  | cons ev es ih =>
    rw [List.foldlM_cons] at h
    obtain ⟨q₁, hnext, hrest⟩ := Option.bind_eq_some_iff.mp h
    by_cases hev : ev = .setE false
    · subst hev
      obtain ⟨hlead, hlead₁⟩ := nibbleNext_fall hnext
      obtain ⟨hfirst, hchain⟩ := ih t hrest
      rw [hlead₁] at hfirst
      exact ⟨by simp [fallTimes, hlead], List.isChain_cons.mpr ⟨hfirst, hchain⟩⟩
    · obtain ⟨hfirst, hchain⟩ := ih (t + minDuration [ev]) hrest
      have hlead := nibbleNext_lead hev hnext
      rw [fallTimes_cons hev]
      exact ⟨fun fall hfall => by have := hfirst fall hfall; omega, hchain⟩

/-- Settles O54: a history that keeps the contract is accepted by the nibble machine. -/
theorem enableFallsAreSpaced : Obligations.EnableFallsAreSpaced := by
  intro s h
  obtain ⟨-, hchain⟩ := fallTimes_spaced s.history 0 h
  exact hchain

end Sys2Proof.Machine
end

section
/-! PROOFS. Decoding the encoder's words (30_encoding.md rules R54 to R58), an equation per format with operands, and the
refusal of a word that is no instruction (rule R59, 60_exceptions.md rule R133 (d)). -/

namespace Sys2Proof

/-! ## Request words -/

/-- Settles O3: the decoder reads back the field `op`, which has eight values, and the fields its row uses. -/
theorem requestWordSelectsByOp : Obligations.RequestWordSelectsByOp := by
  intro op a b
  change decodeReq (reqWord op a b) = _
  rw [decodeReq, reqOp_reqWord, reqA_reqWord, reqB_reqWord]
  obtain rfl | rfl | rfl | rfl | rfl | rfl | rfl | rfl := op_cases op <;> rfl

/-- LOCATE's operands in their fields, back at the abstract interface (R58). -/
theorem decode_locateWord (a b : Byte) : decode (.req19 (reqWord 2 a b)) = .ok (.locate a.toNat b.toNat) :=
  requestWordSelectsByOp 2 a b

/-! ## Command bytes -/

/-- A byte with bit 7 set is none of the four fixed commands, so it is SET_DDRAM_ADDR (R54). -/
theorem decodeCmd_of_bit7 {b : Byte} (h : b.getLsbD 7 = true) : decodeCmd b = .ok (.setDdramAddr (b.setWidth 7)) := by
  have fixed : ∀ c ∈ fixedCommands, c.getLsbD 7 = false := by decide
  have notFixed : b ∉ fixedCommands := fun hb => by rw [fixed b hb] at h; cases h
  obtain ⟨h01, h06, h0C, h28⟩ : b ≠ 0x01 ∧ b ≠ 0x06 ∧ b ≠ 0x0C ∧ b ≠ 0x28 := by
    simpa [fixedCommands] using notFixed
  rw [decodeCmd, if_neg h01, if_neg h06, if_neg h0C, if_neg h28, if_pos h]

/-- The address survives under the bit put before it (R54: `1aaaaaaa`). -/
theorem decode_addressByte (a : Addr) : decode (.cmd8 (1#1 ++ a)) = .ok (.setDdramAddr a) := by
  have bit7 : (1#1 ++ a : Byte).getLsbD 7 = true := by rw [BitVec.getLsbD_append]; rfl
  have address : (1#1 ++ a : Byte).setWidth 7 = a := BitVec.setWidth_append_eq_right
  exact (decodeCmd_of_bit7 bit7).trans (by rw [address])

/-! ## The round trip -/

/-- Settles O1: instructions without operands have one word each; a byte operand is its field, an address is read below
bit 7, and LOCATE's integers are kept by their fields because they fit u8. -/
theorem decodeOfEncodeIsTheInstruction : Obligations.DecodeOfEncodeIsTheInstruction := by
  intro i hi
  cases i with
  | writeChar c => exact requestWordSelectsByOp 1 c 0
  | locate column row =>
    obtain ⟨hc, hc', hr, hr'⟩ : 0 ≤ column ∧ column < 256 ∧ 0 ≤ row ∧ row < 256 := of_decide_eq_true hi
    rw [encode, decode_locateWord, toNat_ofInt_of_u8 hc hc', toNat_ofInt_of_u8 hr hr']
  | setDdramAddr a => exact decode_addressByte a
  | init | clear | newline | clearDisplay | entryModeSet | displayControl | functionSet | initNibble3 | initNibble2
  | writeData => rfl

/-- Settles O4: each request word is written as R58's fields, CLEAR's with ignored operands; the other words are those
of the encoder. -/
theorem exampleWordsDecode : Obligations.ExampleWordsDecode :=
  ⟨requestWordSelectsByOp 0 0x00 0x00, requestWordSelectsByOp 1 0x54 0x00, requestWordSelectsByOp 2 0x13 0x03,
    requestWordSelectsByOp 3 0xAB 0xCD, requestWordSelectsByOp 4 0x00 0x00,
    decodeOfEncodeIsTheInstruction .clearDisplay rfl, decodeOfEncodeIsTheInstruction .entryModeSet rfl,
    decodeOfEncodeIsTheInstruction .displayControl rfl, decodeOfEncodeIsTheInstruction .functionSet rfl,
    decodeOfEncodeIsTheInstruction (.setDdramAddr 0x67) rfl, decodeOfEncodeIsTheInstruction .initNibble3 rfl,
    decodeOfEncodeIsTheInstruction .initNibble2 rfl, decodeOfEncodeIsTheInstruction (.writeData 0xFF) rfl⟩

end Sys2Proof

namespace Sys2Proof.Machine

/-! ## A word that is no instruction -/

/-- Settles O6: the step refuses a rejected word under the name `refusalOf` gives its rejection. -/
theorem stepRefusesWhatDoesNotDecode : Obligations.StepRefusesWhatDoesNotDecode := by
  intro s w rest hp hq
  have refused (e : Reject) (he : decode w = .error e) : step s = .refused (refusalOf e) :=
    step_of_rejected hp hq he
  exact ⟨refused .reservedOp, refused .neverEmittedCommand, refused .neverEmittedNibble⟩

end Sys2Proof.Machine
end
